-- ==== Sys2Proof/Word.lean ====
section
/-! DEFINITION. The unsigned number types of SK (spec/00_scope.md R8, R9: nothing is signed, bit 0 is the
least significant bit). -/

namespace Sys2Proof

/-- `u64`: a command word, a backing word of the packed storage, a response datum. -/
abbrev Word := BitVec 64

/-- `u32`: a digest, a tail, a register index operand. -/
abbrev U32 := BitVec 32

/-- `u8`: a value operand, a backing cell of the unpacked storage, a register's value zero-extended to 8 bits. -/
abbrev Byte := BitVec 8

end Sys2Proof
end

