-- ==== Sys2Proof/Syntax.lean ====
section
/-! DEFINITION. The eight commands of SK, one constructor per row of the opcode table (R84), with the operand
types of R82. -/

namespace Sys2Proof

/-- The commands (spec/30_encoding.md R84). Every operand is one contiguous unsigned field (R82), so every
value of the types below is an encodable command. -/
inductive Instr where
  /-- `GET i` (R113) -/
  | get (i : U32)
  /-- `SET i, v` (R114) -/
  | set (i : U32) (v : Byte)
  /-- `ADD d` (R130) -/
  | add (d : U32)
  /-- `ESTIMATE` (R150) -/
  | estimate
  /-- `RESET` (R180) -/
  | reset
  /-- `RDB` (R181) -/
  | rdb
  /-- `RDM` (R182) -/
  | rdm
  /-- `RDFOOT` (R183) -/
  | rdfoot
deriving DecidableEq, Repr

end Sys2Proof
end

