-- ==== Sys2Proof/Decode.lean ====
section
/-! DEFINITION. Decoding a 64-bit command word (spec/30_encoding.md R81 to R90) and encoding a command. The
decoder follows the match and mask table of R84; the encoder follows the field layout of R81. -/

namespace Sys2Proof

/-! ## The fields of R81 -/

/-- `op`, bits 63:60. -/
def opField (c : Word) : BitVec 4 := c.extractLsb' 60 4

/-- `rsv`, bits 59:40, must be 0. -/
def rsvField (c : Word) : BitVec 20 := c.extractLsb' 40 20

/-- `v`, bits 39:32, the value operand of `SET`. -/
def vField (c : Word) : Byte := c.extractLsb' 32 8

/-- `a`, bits 31:0, the digest of `ADD`, the index of `GET` and `SET`. -/
def aField (c : Word) : U32 := c.extractLsb' 0 32

/-- The command word with the given fields and `rsv = 0` (R81). -/
def commandWord (op : BitVec 4) (v : Byte) (a : U32) : Word := op ++ 0#20 ++ v ++ a

/-! ## The table of R84 -/

/-- The opcodes of R84, one per row. -/
inductive Op where
  | get | set | add | estimate | reset | rdb | rdm | rdfoot
deriving DecidableEq, Repr

/-- The `op` column of R84. -/
def Op.code : Op → BitVec 4
  | .get => 0x1
  | .set => 0x2
  | .add => 0x3
  | .estimate => 0x4
  | .reset => 0x5
  | .rdb => 0x6
  | .rdm => 0x7
  | .rdfoot => 0x8

/-- The `match` column of R84. -/
def Op.matchWord : Op → Word
  | .get => 0x1000000000000000
  | .set => 0x2000000000000000
  | .add => 0x3000000000000000
  | .estimate => 0x4000000000000000
  | .reset => 0x5000000000000000
  | .rdb => 0x6000000000000000
  | .rdm => 0x7000000000000000
  | .rdfoot => 0x8000000000000000

/-- The `mask` column of R84: `op`, `rsv` and every operand field the command does not use. -/
def Op.mask : Op → Word
  | .get => 0xFFFFFFFF00000000
  | .set => 0xFFFFFF0000000000
  | .add => 0xFFFFFFFF00000000
  | .estimate => 0xFFFFFFFFFFFFFFFF
  | .reset => 0xFFFFFFFFFFFFFFFF
  | .rdb => 0xFFFFFFFFFFFFFFFF
  | .rdm => 0xFFFFFFFFFFFFFFFF
  | .rdfoot => 0xFFFFFFFFFFFFFFFF

/-- The rows of R84 in their order. -/
def opcodeTable : List Op := [.get, .set, .add, .estimate, .reset, .rdb, .rdm, .rdfoot]

/-- `c & mask = match` (R83): the command word `c` selects this row. -/
def Op.selectedBy (o : Op) (c : Word) : Bool := c &&& o.mask == o.matchWord

/-- The command of a row with its operands taken from the fields of the word (R82). -/
def Op.instr (o : Op) (c : Word) : Instr :=
  match o with
  | .get => .get (aField c)
  | .set => .set (aField c) (vField c)
  | .add => .add (aField c)
  | .estimate => .estimate
  | .reset => .reset
  | .rdb => .rdb
  | .rdm => .rdm
  | .rdfoot => .rdfoot

/-! ## Decoding -/

/-- Why a command word matches no row (R202). The response is `ILLEGAL_COMMAND` for all three. -/
inductive DecodeError where
  /-- opcode `0x0` or `0x9` to `0xF` (R90) -/
  | unassignedOpcode
  /-- an assigned opcode with `rsv` not 0 (R87) -/
  | reservedField
  /-- an assigned opcode with an operand field it does not use not 0 (R87) -/
  | unusedField
deriving DecidableEq, Repr

/-- The reason a word that matches no row is illegal (R87, R90). -/
def decodeError (c : Word) : DecodeError :=
  if opcodeTable.all (fun o => o.code != opField c) then .unassignedOpcode
  else if rsvField c != 0 then .reservedField
  else .unusedField

/-- Decoding (R83): the command of the row the word selects, or the reason it selects none. -/
def decode (c : Word) : Except DecodeError Instr :=
  match opcodeTable.find? (fun o => o.selectedBy c) with
  | some o => .ok (o.instr c)
  | none => .error (decodeError c)

/-! ## Encoding -/

/-- The row of a command. -/
def Instr.op : Instr → Op
  | .get _ => .get
  | .set _ _ => .set
  | .add _ => .add
  | .estimate => .estimate
  | .reset => .reset
  | .rdb => .rdb
  | .rdm => .rdm
  | .rdfoot => .rdfoot

/-- The `v` field of a command: the value of `SET`, 0 in every other command (R81). -/
def Instr.vOperand : Instr → Byte
  | .set _ v => v
  | .get _ | .add _ | .estimate | .reset | .rdb | .rdm | .rdfoot => 0

/-- The `a` field of a command: an index, a digest, or 0 (R81). -/
def Instr.aOperand : Instr → U32
  | .get i => i
  | .set i _ => i
  | .add d => d
  | .estimate | .reset | .rdb | .rdm | .rdfoot => 0

/-- The command word of a command (R81). -/
def encode (i : Instr) : Word := commandWord i.op.code i.vOperand i.aOperand

/-! ## The opcode table's numbering -/

/-- The 64-bit command word whose low `nbits` bits are those of `w` and whose other bits are 0. A command word
is presented whole, as one number (R80), so the table's bit numbers are the word's own. -/
def tableWord (nbits w : Nat) : Word := BitVec.ofNat 64 (w % 2 ^ nbits)

/-- The command the decoder reads from an opcode-table word. -/
def decodeTableWord (nbits w : Nat) : Option Instr := (decode (tableWord nbits w)).toOption

end Sys2Proof
end

