-- ==== Sys2Proof/Config.lean ====
section
/-! DEFINITION. What construction (power-on) fixes: the precision `B`, the storage variant, and the one
parameter the spec leaves open, the binary64 evaluation of the estimate. -/

namespace Sys2Proof

/-- `VARIANT` (R5, D18): bit-packed registers in 64-bit words, or one register per byte. -/
inductive Variant where
  | packed
  | unpacked
deriving DecidableEq, Repr

/-- The precision `B`, `0 <= B <= 32` (R5, D2). A precision outside the range has no value of this type:
no SK exists for it (R212, I4). -/
abbrev Precision := Fin 33

/-- The uninterpreted part of `F64Eval` (R160, D8 OPEN): for a precision and the register values in index
order, some 64-bit pattern. It has no body, so nothing can be proved of its values; `f64Eval` in
`Machine/Estimate.lean` imposes the properties F2 and F3 on it, and its type is F1.
Assumption log 3. -/
opaque Config.f64Raw : Precision → List Byte → Word

end Sys2Proof
end

