-- ==== Sys2Proof/Machine/State.lean ====
section
/-! DEFINITION. The state of SK (spec/10_state.md R20): the backing storage, the construction parameters, and
the two ends of the command port the host holds (R80, R234). -/

namespace Sys2Proof.Machine

/-- The status of a response (R85). The codes `0x3` to `0xF` are never produced (I16). -/
inductive Status where
  /-- `0x0`: the command was executed -/
  | ok
  /-- `0x1`: the word matched no row of R84 -/
  | illegalCommand
  /-- `0x2`: `GET` or `SET` with an index `>= m` -/
  | indexRange
deriving DecidableEq, Repr

/-- A response word (R85): a status and a 64-bit datum. -/
structure Response where
  status : Status
  data : Word
deriving DecidableEq, Repr

/-- What the host can send to SK (R234): a power-on with its two straps (R230), or one command word (R80). -/
inductive HostInput where
  | powerOn (cfgB : BitVec 6) (cfgVariant : Variant)
  | command (word : Word)
deriving DecidableEq, Repr

/-- A sparse memory of `n`-bit containers: (address, content) pairs, addresses strictly rising, no content 0.
An unlisted address reads as 0, the power-on and `RESET` content (R32). `Memory 8` is a list of `Host.Cell`. -/
abbrev Memory (n : Nat) := List (Nat × BitVec n)

/-- The backing storage (R20). The variant is the constructor: storage of the other variant does not exist in
the same block. -/
inductive Storage where
  /-- PACKED: `words[w]`, 64-bit words by word index (R24) -/
  | packed (words : Memory 64)
  /-- UNPACKED: `cells[i]`, bytes by register index (R26) -/
  | unpacked (cells : Memory 8)
deriving DecidableEq, Repr

/-- The state. `B` and the variant (the constructor of `storage`) are construction parameters that no command
changes (R5, R20); they stand here so that the step serves every configuration and power-on can set them
(R230; assumption log 1). `inputs` and `responses` are the model's own record of the command port (R80;
assumption log 2). -/
structure State where
  /-- the precision, sampled from `cfg_B` at power-on -/
  B : Precision
  /-- the backing storage: SK's whole architectural state (R20) -/
  storage : Storage
  /-- what the host has sent and SK has not yet taken, first to be taken first -/
  inputs : List HostInput
  /-- every response SK has delivered, first delivered first -/
  responses : List Response
deriving DecidableEq, Repr

/-- SK has no fault: an error is a response with no state change (R201, R206), valid commands cannot fail
(R200), and "there is no other exception" (R204). The type has no constructor, so no step can fault. -/
inductive Fault where
deriving DecidableEq, Repr

/-- Why a step has no meaning. -/
inductive Refusal where
  /-- Raised by an arm of `exec` whose command has no meaning yet. Safe: nothing can be proved of it. -/
  | notModelled (mnemonic : String)
  /-- Raised by a power-on with `cfg_B` 33 to 63 (R212): no SK exists for it, and the spec says that a model
  must refuse. Safe. -/
  | strapOutOfRange (cfgB : BitVec 6)
deriving DecidableEq, Repr

/-- The state right after power-on: every storage bit 0 (R32), nothing sent and nothing answered. The precision
and the variant are those of the strapped configuration; `B = 4`, PACKED is the model's choice of straps
(DESIGN CHOICE, assumption log 1). A power-on input reaches every other configuration. -/
def State.reset : State where
  B := 4
  storage := .packed []
  inputs := []
  responses := []

end Sys2Proof.Machine
end

