-- ==== Sys2Proof/Machine/Flags.lean ====
section
/-! DEFINITION. SK has no flag, no condition code and no status register (R28): "the outcome of a command is its
response word only". This file therefore holds the one status computation there is, the response's (R85). -/

namespace Sys2Proof.Machine

/-- The 4-bit status code (R85). -/
def Status.code : Status → BitVec 4
  | .ok => 0x0
  | .illegalCommand => 0x1
  | .indexRange => 0x2

/-- The response of a command that was executed (R86). -/
def Response.okay (data : Word) : Response := ⟨.ok, data⟩

/-- The response of an error: its status code, and `data = 0` (R85, R201). -/
def Response.error (e : Status) : Response := ⟨e, 0⟩

end Sys2Proof.Machine
end

