-- ==== Sys2Proof/Machine/Params.lean ====
section
/-! DEFINITION. The quantities derived from `B` and `VARIANT` (spec/00_scope.md R5, table in R7). -/

namespace Sys2Proof

/-- `m = 2^B`, the number of registers. -/
def Precision.m (B : Precision) : Nat := 2 ^ B.val

/-- `maxBits = 32 - B`, the width of the tail. -/
def Precision.maxBits (B : Precision) : Nat := 32 - B.val

/-- `bitsPerRegister`: 6 if PACKED, 8 if UNPACKED. -/
def Variant.bitsPerRegister : Variant → Nat
  | .packed => 6
  | .unpacked => 8

/-- `registerMax = 2^bitsPerRegister - 1`. -/
def Variant.registerMax (v : Variant) : Nat := 2 ^ v.bitsPerRegister - 1

/-- `W = ceil(m * 6 / 64)`, the number of 64-bit backing words (PACKED). -/
def Precision.W (B : Precision) : Nat := (B.m * 6 + 63) / 64

/-- `FOOTPRINT` in bytes (R5, R183): `8 * W` if PACKED, `m` if UNPACKED. -/
def footprint (B : Precision) : Variant → Nat
  | .packed => 8 * B.W
  | .unpacked => B.m

end Sys2Proof
end

