-- ==== Sys2Proof/Machine/Operands.lean ====
section
/-! DEFINITION. The operand forms of the commands (R82): the register index with its range check, the value
with its mask, and the digest, split by the hash-bucket demultiplexer (R131, R132) and ranked by the
leading-zero counter (R133). -/

namespace Sys2Proof.Machine

/-- An index operand names a register exactly when `i < m` (R56); otherwise `GET` and `SET` raise
`INDEX_RANGE` (R203). -/
def indexInRange (B : Precision) (i : U32) : Bool := decide (i.toNat < B.m)

/-- `v & registerMax` (R110): the value `set` stores. -/
def maskValue (var : Variant) (v : Byte) : Byte := v &&& BitVec.ofNat 8 var.registerMax

/-- `bucket(d) = d >> (32 - B)`, the top `B` bits of the digest (R131); the full-width shift at `B = 0` gives
0 (D1). -/
def bucket (B : Precision) (d : U32) : Nat := (d >>> B.maxBits).toNat

/-- `tailOf(d) = d << B` as a `u32` (R132); the full-width shift at `B = 32` gives 0 (D1). -/
def tailOf (B : Precision) (d : U32) : U32 := d <<< B.val

/-- The number of leading zeros among the `n` bits of `tail` that start at bit `31 - k`, bit `31 - k` first,
with `k` zeros already counted. -/
def lzFrom (tail : U32) : (n k : Nat) → Nat
  | 0, k => k
  | n + 1, k => if tail.getLsbD (31 - k) then k else lzFrom tail n (k + 1)

/-- `lzTop(tail)` (R133): the leading zeros among the top `maxBits` bits of the tail, `maxBits` when all of
them are zero. -/
def lzTop (B : Precision) (tail : U32) : Nat := lzFrom tail B.maxBits 0

/-- `rankOf(tail) = lzTop(tail) + 1` (R133). -/
def rankOf (B : Precision) (tail : U32) : Nat := lzTop B tail + 1

/-- The rank an `ADD d` derives from its digest (R130). -/
def rankOfDigest (B : Precision) (d : U32) : Nat := rankOf B (tailOf B d)

end Sys2Proof.Machine
end

