-- ==== Sys2Proof/Machine/Ops.lean ====
section
/-! DEFINITION. The operations the commands are written with: the sparse memory, the register array's `get`
and `set` for both variants (R111, R112), clearing, the response, and `raise` (R201). -/

namespace Sys2Proof.Machine

/-! ## The sparse memory -/

/-- The content at address `a`; an unlisted address reads as 0 (R32). -/
def Memory.read {n : Nat} (m : Memory n) (a : Nat) : BitVec n :=
  match m with
  | [] => 0
  | (b, x) :: rest => if b = a then x else Memory.read rest a

/-- The memory without address `a`. -/
def Memory.erase {n : Nat} (m : Memory n) (a : Nat) : Memory n := m.filter (fun c => c.1 != a)

/-- An entry added before the first larger address. -/
def Memory.insert {n : Nat} (m : Memory n) (a : Nat) (x : BitVec n) : Memory n :=
  match m with
  | [] => [(a, x)]
  | (b, y) :: rest => if a < b then (a, x) :: (b, y) :: rest else (b, y) :: Memory.insert rest a x

/-- `x` stored at address `a`; storing 0, what an unlisted address reads as, removes the entry. -/
def Memory.write {n : Nat} (m : Memory n) (a : Nat) (x : BitVec n) : Memory n :=
  if x = 0 then m.erase a else (m.erase a).insert a x

/-- The canonical form: addresses strictly rising, and no content 0. -/
def Memory.wf {n : Nat} : Memory n → Bool
  | [] => true
  | (a, x) :: rest => decide (x ≠ 0) && rest.all (fun c => decide (a < c.1)) && Memory.wf rest

/-! ## Locating a register in the packed words (R51 to R54) -/

/-- `bitOffset = 6 * i`, an exact natural number (R53, D20). -/
def bitOffset (i : Nat) : Nat := Variant.packed.bitsPerRegister * i

/-- `w = bitOffset div 64`, the word that holds the register's low bits (R53). -/
def wordIndex (i : Nat) : Nat := bitOffset i / 64

/-- `s = bitOffset mod 64`, the register's offset in that word (R53). -/
def shift (i : Nat) : Nat := bitOffset i % 64

/-- The register lies in two adjacent words: not `s + 6 <= 64` (R54). -/
def straddles (i : Nat) : Bool := decide (64 < shift i + 6)

/-- `mask(k) = 2^k - 1` on a backing word (R10). -/
def mask (k : Nat) : Word := BitVec.ofNat 64 (2 ^ k - 1)

/-- `lowBits = 64 - s`, the number of a straddling register's bits in its first word (R111). -/
def lowBits (i : Nat) : Nat := 64 - shift i

/-- `highBits = 6 - lowBits`, the number of a straddling register's bits in the next word (R111). -/
def highBits (i : Nat) : Nat := 6 - lowBits i

/-! ## `get` and `set` (R111, R112) -/

/-- `get(i)`, PACKED (R111): the 6-bit value, as the backing word the pseudocode computes. -/
def packedGet (words : Memory 64) (i : Nat) : Word :=
  if straddles i then
    (words.read (wordIndex i) >>> shift i) |||
      ((words.read (wordIndex i + 1) &&& mask (highBits i)) <<< lowBits i)
  else
    (words.read (wordIndex i) >>> shift i) &&& 0x3F#64

/-- `set(i, v)`, PACKED (R112), for the masked value `x = v & 0x3F` as a backing word. -/
def packedSet (words : Memory 64) (i : Nat) (x : Word) : Memory 64 :=
  if straddles i then
    (words.write (wordIndex i)
        ((words.read (wordIndex i) &&& mask (shift i)) |||
          ((x &&& mask (lowBits i)) <<< shift i))).write
      (wordIndex i + 1)
      ((words.read (wordIndex i + 1) &&& ~~~ mask (highBits i)) ||| (x >>> lowBits i))
  else
    words.write (wordIndex i)
      ((words.read (wordIndex i) &&& ~~~ (0x3F#64 <<< shift i)) ||| (x <<< shift i))

/-- Which variant the storage is of. -/
def Storage.variant : Storage → Variant
  | .packed _ => .packed
  | .unpacked _ => .unpacked

/-- `get(i)` (R111): the register's value, zero-extended to 8 bits. -/
def Storage.get (st : Storage) (i : Nat) : Byte :=
  match st with
  | .packed words => (packedGet words i).setWidth 8
  | .unpacked cells => cells.read i

/-- `set(i, v)` (R112): stores `v & registerMax`. -/
def Storage.set (st : Storage) (i : Nat) (v : Byte) : Storage :=
  match st with
  | .packed words => .packed (packedSet words i ((maskValue .packed v).setWidth 64))
  | .unpacked cells => .unpacked (cells.write i (maskValue .unpacked v))

/-- The all-zero storage of a variant: the content after power-on and after `RESET` (R32). -/
def Storage.empty : Variant → Storage
  | .packed => .packed []
  | .unpacked => .unpacked []

/-- Bit `p` of the logical bit stream over the storage: bit `p mod 64` of `words[p div 64]` (R51), or bit
`p mod 8` of `cells[p div 8]` (R55). Register `i` is the bits from `i * bitsPerRegister` on. -/
def Storage.bit (st : Storage) (p : Nat) : Bool :=
  match st with
  | .packed words => (words.read (p / 64)).getLsbD (p % 64)
  | .unpacked cells => (cells.read (p / 8)).getLsbD (p % 8)

/-- A storage that fits precision `B`: canonical, every container inside the backing space (`[0, W)` or
`[0, m)`, R50), and the padding 0 (R25: in word `w` the bits from `6m - 64w` on). -/
def Storage.wf (B : Precision) : Storage → Bool
  | .packed words =>
      words.wf && words.all (fun c => decide (c.1 < B.W) && c.2 >>> (6 * B.m - 64 * c.1) == 0)
  | .unpacked cells => cells.wf && cells.all (fun c => decide (c.1 < B.m))

/-! ## Operations on the state -/

/-- The variant of the block. -/
def State.variant (s : State) : Variant := s.storage.variant

/-- `reg[i]`, the register view (R21). -/
def State.reg (s : State) (i : Nat) : Byte := s.storage.get i

/-- `reg[0], ..., reg[m-1]`, read through `get` (R150, R159). -/
def State.registers (s : State) : List Byte := (List.range s.B.m).map s.reg

/-- `reg[i] <- v` (R21): `set(i, v)`. -/
def State.setReg (s : State) (i : Nat) (v : Byte) : State := { s with storage := s.storage.set i v }

/-- Every register and, PACKED, the padding cleared (R180). -/
def State.clear (s : State) : State := { s with storage := Storage.empty s.variant }

/-- A response delivered: exactly one per command, in the order of the commands (R80). -/
def State.deliver (s : State) (r : Response) : State := { s with responses := s.responses ++ [r] }

/-- `respond(v)` (R11): the command ends with status `OK` and data `v`. -/
def State.respond (s : State) (data : Word) : State := s.deliver (Response.okay data)

/-- `raise <Error>` (R201, R206): the command ends with the error's status and `data = 0`, and nothing else
happens. An error saves nothing and goes nowhere, and there is nothing to return from (R207): the next step
takes the next command. -/
def State.raise (s : State) (e : Status) : State := s.deliver (Response.error e)

/-- The state fits its precision. -/
def State.wf (s : State) : Bool := s.storage.wf s.B

end Sys2Proof.Machine
end

