-- ==== Sys2Proof/Machine/Accessors.lean ====
section
/-! DEFINITION. `RESET` and the read-only accessors (spec/43_reset_accessors.md R180 to R183). -/

namespace Sys2Proof.Machine

/-- `RESET` (R180): every word or cell becomes 0, padding included; `B` and the variant stay; responds with 0. -/
def execReset (s : State) : Host.Outcome State Fault Refusal := .next (s.clear.respond 0)

/-- `RDB` (R181): responds with `B`. -/
def execRdb (s : State) : Host.Outcome State Fault Refusal := .next (s.respond (BitVec.ofNat 64 s.B.val))

/-- `RDM` (R182): responds with `m = 2^B`. -/
def execRdm (s : State) : Host.Outcome State Fault Refusal := .next (s.respond (BitVec.ofNat 64 s.B.m))

/-- `RDFOOT` (R183): responds with the storage footprint in bytes. -/
def execRdfoot (s : State) : Host.Outcome State Fault Refusal :=
  .next (s.respond (BitVec.ofNat 64 (footprint s.B s.variant)))

end Sys2Proof.Machine
end

