-- ==== Sys2Proof/Machine/Add.lean ====
section
/-! DEFINITION. `ADD` (spec/41_add.md R130): demultiplex the digest, rank its tail, max-update one register. -/

namespace Sys2Proof.Machine

/-- `max(cur, rank)` on the stored value and the rank, both unsigned (R134). The rank is at most 33, so the
result fits the register and `set`'s mask does not change it (R136). -/
def maxUpdate (cur : Byte) (rank : Nat) : Byte := BitVec.ofNat 8 (max cur.toNat rank)

/-- `ADD d` (R130): `reg[bucket(d)] <- max(reg[bucket(d)], rank)`, an unconditional write, and responds
with 0. -/
def execAdd (d : U32) (s : State) : Host.Outcome State Fault Refusal :=
  let idx := bucket s.B d
  .next ((s.setReg idx (maxUpdate (s.reg idx) (rankOfDigest s.B d))).respond 0)

end Sys2Proof.Machine
end

