-- ==== Sys2Proof/Machine/Estimate.lean ====
section
/-! DEFINITION. `ESTIMATE` (spec/42_estimate.md R150) with the open parameter `F64Eval` (R160 to R164). A binary64
value is its 64-bit interchange pattern (R164): sign bit 63, exponent bits 62:52, fraction bits 51:0. -/

namespace Sys2Proof.Machine

/-- The pattern is a finite binary64 number `>= +0.0` (R163, F3): the exponent field is not all ones, and the
sign is plus or the magnitude is zero. `-0.0` compares equal to `+0.0` and is admitted, which is the weaker
reading (DEDUCED, assumption log 4). -/
def f64Admissible (e : Word) : Bool :=
  e.extractLsb' 52 11 != 0x7FF && (!e.getLsbD 63 || e.extractLsb' 0 63 == 0)

/-- Properties F2 and F3 imposed on an arbitrary evaluation (R162, R163): `+0.0` when every register is 0, and
the evaluation's value wherever that is admissible. Every evaluation that has F2 and F3 is its own image. -/
def f64Constrain (raw : Precision → List Byte → Word) (B : Precision) (r : List Byte) : Word :=
  if r.all (fun x => x == 0) then 0
  else if f64Admissible (raw B r) then raw B r else 0

/-- `F64Eval(B, r)` (R160): any function of `B` and the register values alone (F1, R161) with F2 and F3. Its
values are free (assumption log 3). -/
def f64Eval (B : Precision) (r : List Byte) : Word := f64Constrain Config.f64Raw B r

/-- `ESTIMATE` (R150): reads every register, changes none, and responds with the pattern of the estimate. -/
def execEstimate (s : State) : Host.Outcome State Fault Refusal :=
  .next (s.respond (f64Eval s.B s.registers))

end Sys2Proof.Machine
end

