-- ==== Sys2Proof/Machine/RegisterArray.lean ====
section
/-! DEFINITION. `GET` and `SET` (spec/40_register_array.md R113, R114). -/

namespace Sys2Proof.Machine

/-- `GET i` (R113): `INDEX_RANGE` when `i >= m`, before any storage access; otherwise responds with `reg[i]`
zero-extended to 64 bits. -/
def execGet (i : U32) (s : State) : Host.Outcome State Fault Refusal :=
  if indexInRange s.B i then .next (s.respond ((s.reg i.toNat).setWidth 64))
  else .next (s.raise .indexRange)

/-- `SET i, v` (R114): `INDEX_RANGE` when `i >= m`, with no storage change; otherwise
`reg[i] <- v & registerMax`, and responds with 0. -/
def execSet (i : U32) (v : Byte) (s : State) : Host.Outcome State Fault Refusal :=
  if indexInRange s.B i then .next ((s.setReg i.toNat v).respond 0)
  else .next (s.raise .indexRange)

end Sys2Proof.Machine
end

