-- ==== Sys2Proof/Machine/Dispatch.lean ====
section
/-! DEFINITION. The meaning of each command of the opcode table (R84). -/

namespace Sys2Proof.Machine

def exec (i : Instr) (s : State) : Host.Outcome State Fault Refusal :=
  match i with
  | .get idx => Sys2Proof.Machine.execGet idx s
  | .set idx v => Sys2Proof.Machine.execSet idx v s
  | .add d => Sys2Proof.Machine.execAdd d s
  | .estimate => Sys2Proof.Machine.execEstimate s
  | .reset => Sys2Proof.Machine.execReset s
  | .rdb => Sys2Proof.Machine.execRdb s
  | .rdm => Sys2Proof.Machine.execRdm s
  | .rdfoot => Sys2Proof.Machine.execRdfoot s

end Sys2Proof.Machine
end

