-- ==== Sys2Proof/WellFormed.lean ====
section
/-! DEFINITION. What the spec calls valid input: a decoded command whose index is in range (R200), and a strap
that `B` admits (R212). Every `Instr` is encodable, since its operands have the widths of their fields, so the
one check on a command is R200's, against the precision of the block that executes it. -/

namespace Sys2Proof

/-- R200: "Valid means: a command word that matches a row of R84, and, for `GET` and `SET`, an index in
`[0, m)`". -/
def Instr.wellFormed (B : Precision) : Instr → Bool
  | .get i => Machine.indexInRange B i
  | .set i _ => Machine.indexInRange B i
  | .add _ => true
  | .estimate => true
  | .reset => true
  | .rdb => true
  | .rdm => true
  | .rdfoot => true

/-- The strap `cfg_B` is 6 bits wide and admits 0 to 32 only (R212, R230). -/
def strapWellFormed (cfgB : BitVec 6) : Bool := decide (cfgB.toNat ≤ 32)

end Sys2Proof
end

