-- ==== Sys2Proof/Machine/PowerOn.lean ====
section
/-! DEFINITION. Power-on, the source's construction (spec/70_reset_and_hazards.md R230). -/

namespace Sys2Proof.Machine

/-- The precision a strap value gives, for a strap in `[0, 32]`. -/
def precisionOfStrap (cfgB : BitVec 6) : Precision := Fin.ofNat 33 cfgB.toNat

/-- Power-on (R230): the straps fix `B` and the variant and the whole backing storage is 0; a strap of 33 to 63
is refused (R212). It is no command, so it delivers no response; the host keeps what it has received. -/
def State.powerOn (cfgB : BitVec 6) (cfgVariant : Variant) (s : State) : Host.Outcome State Fault Refusal :=
  if strapWellFormed cfgB then
    .next { s with B := precisionOfStrap cfgB, storage := Storage.empty cfgVariant }
  else
    .refused (.strapOutOfRange cfgB)

end Sys2Proof.Machine
end

