-- ==== Sys2Proof/Machine/Port.lean ====
section
/-! DEFINITION. What SK does with one input from the host (R80, R230, R234). -/

namespace Sys2Proof.Machine

/-- The next input taken from the host. -/
def State.take (s : State) : State := { s with inputs := s.inputs.tail }

/-- One command word executed to completion (R80): the decoded command, or `ILLEGAL_COMMAND` for a word that
matches no row (R90, R202), which is tested before anything else (R205). -/
def execWord (word : Word) (s : State) : Host.Outcome State Fault Refusal :=
  match decode word with
  | .ok i => exec i s
  | .error _ => .next (s.raise .illegalCommand)

/-- One input handled. -/
def handle (input : HostInput) (s : State) : Host.Outcome State Fault Refusal :=
  match input with
  | .powerOn cfgB cfgVariant => s.powerOn cfgB cfgVariant
  | .command word => execWord word s

/-- The whole of a step: the first input is taken and handled. With no input SK waits, always ready for another command
(R232, R234: never a state change without a command); a step then changes nothing (assumption log 2). -/
def takeInput (s : State) : Host.Outcome State Fault Refusal :=
  match s.inputs with
  | [] => .next s
  | input :: _ => handle input s.take

/-- The word put where the next step takes its command from: at the front of the host's inputs. -/
def State.present (s : State) (word : Word) : State := { s with inputs := .command word :: s.inputs }

end Sys2Proof.Machine
end

