-- ==== Sys2Proof/Machine/Step.lean ====
section
/-! DEFINITION. The step (R238: one agent, one step kind) and the placing of an opcode-table word where the
next step takes it. -/

namespace Sys2Proof.Machine

/-- One step of SK: the host's next input is executed to completion (R80, R237). -/
def step (s : State) : Host.Outcome State Fault Refusal := takeInput s

/-- `s` with the opcode-table word as the host's next command (R80). SK fetches nothing (R27, R63): a program is
the host's sequence of command words (assumption log 2). -/
def State.withFetchWord (s : State) (nbits w : Nat) : State := s.present (tableWord nbits w)

end Sys2Proof.Machine
end

