-- ==== Sys2Proof/Machine/EstReal.lean ====
section
/-! DEFINITION. The exact estimate `EstReal` (spec/42_estimate.md R151 to R157). Everything but the natural logarithm is
rational and is computed exactly; the logarithm needs the reals, so `estReal` alone is not computable. No step
uses this file: the spec states no bound between `EstReal` and the value `ESTIMATE` returns (R163, assumption
log 3). -/

namespace Sys2Proof.Machine

/-- `alpha(m)` (R151), the decimal literals taken as exact fractions. -/
def alpha (m : Nat) : ℚ :=
  if m = 16 then 673 / 1000
  else if m = 32 then 697 / 1000
  else if m = 64 then 709 / 1000
  else (7213 / 10000) / (1 + (1079 / 1000) / m)

/-- `sum`, the sum of `2^(-register[j])` over all registers (R152). -/
def registerSum (r : List Byte) : ℚ := (r.map (fun x => 1 / 2 ^ x.toNat)).sum

/-- `rawE = alpha * m * m * Z` with `Z = 1/sum` (R152). -/
def rawE (B : Precision) (r : List Byte) : ℚ := alpha B.m * B.m * B.m * (1 / registerSum r)

/-- `V`, the count of registers equal to zero (R153). -/
def zeroCount (r : List Byte) : Nat := r.countP (fun x => x == 0)

/-- The small-range test `rawE <= 2.5 * m` (R153). -/
abbrev smallRange (B : Precision) (r : List Byte) : Prop := rawE B r ≤ 5 / 2 * B.m

/-- The large-range test `rawE > 2^32 / 30` (R153). -/
abbrev largeRange (B : Precision) (r : List Byte) : Prop := 2 ^ 32 / 30 < rawE B r

/-- The five outcomes of the correction (R155). -/
inductive EstBranch where
  | lc | smallRaw | raw | large | clamp
deriving DecidableEq, Repr

/-- The outcome the correction takes, its tests in the order of R153: the small range first (R154). -/
def estBranch (B : Precision) (r : List Byte) : EstBranch :=
  if smallRange B r then
    if 0 < zeroCount r then .lc else .smallRaw
  else if largeRange B r then
    if 1 ≤ rawE B r / 2 ^ 32 then .clamp else .large
  else .raw

/-- `EstReal(B, r)` (R156): the result of the outcome taken (R155). There is no guard for a small `m` (R157). -/
noncomputable def estReal (B : Precision) (r : List Byte) : ℝ :=
  match estBranch B r with
  | .lc => B.m * Real.log (B.m / zeroCount r)
  | .smallRaw => rawE B r
  | .raw => rawE B r
  | .large => -2 ^ 32 * Real.log (1 - rawE B r / 2 ^ 32)
  | .clamp => 2 ^ 32

end Sys2Proof.Machine
end

