-- ==== Sys2Proof/Machine/RefEval.lean ====
section
/-! DEFINITION. The reference evaluation `RefEval` of R163: R156 evaluated literally in binary64, round to nearest
even. It is one admissible `F64Eval`, the source of the reference patterns of spec/95_test_vectors.md. The
machine does not use it: `f64Eval` stays open (assumption log 3). A finite binary64 value is the rational it
denotes. Every magnitude that occurs is 0 or lies between `2^(-300)` and `2^300`, so neither a subnormal nor an
overflow can arise and the exponent range is left out of the rounding (assumption log 5). -/

namespace Sys2Proof.Machine

/-- `2^e` for an integer `e`. -/
def twoPow (e : Int) : ℚ := if 0 ≤ e then ((2 ^ e.toNat : Nat) : ℚ) else 1 / ((2 ^ (-e).toNat : Nat) : ℚ)

/-- The exponent of a non-zero rational: the `e` with `2^e <= |x| < 2^(e+1)`. -/
def exponent (x : ℚ) : Int :=
  let e : Int := x.num.natAbs.log2 - x.den.log2
  if twoPow e ≤ |x| then e else e - 1

/-- The nearest integer, ties to even. -/
def nearestEven (x : ℚ) : Int :=
  let f := x.floor
  if x - f < 1 / 2 then f else if 1 / 2 < x - f then f + 1 else if f % 2 = 0 then f else f + 1

/-- Round to nearest even at binary64's 53-bit significand. -/
def rne (x : ℚ) : ℚ :=
  if x = 0 then 0 else nearestEven (x / twoPow (exponent x - 52)) * twoPow (exponent x - 52)

/-- The sum as `RefEval` accumulates it: each `2^(-r)` exact, from `j = 0` upward, rounded after each addition
(R163). -/
def refSum (r : List Byte) : ℚ := r.foldl (fun acc x => rne (acc + 1 / 2 ^ x.toNat)) 0

/-- `RefEval` over a given logarithm on binary64 values (R163): the literals rounded, the sum, `Z` first and then `((alpha * m) * m) * Z`, the comparisons on rounded values. -/
def refEvalWith (ln : ℚ → ℚ) (B : Precision) (r : List Byte) : ℚ :=
  let m : ℚ := B.m
  let alpha : ℚ :=
    if B.m = 16 then rne (673 / 1000)
    else if B.m = 32 then rne (697 / 1000)
    else if B.m = 64 then rne (709 / 1000)
    else rne (rne (7213 / 10000) / rne (1 + rne (rne (1079 / 1000) / m)))
  let Z : ℚ := rne (1 / refSum r)
  let rawE : ℚ := rne (rne (rne (alpha * m) * m) * Z)
  if rawE ≤ rne (5 / 2 * m) then
    let V : Nat := zeroCount r
    if 0 < V then rne (m * ln (rne (m / V))) else rawE
  else if rne (2 ^ 32 / 30) < rawE then
    let ratio : ℚ := rne (rawE / 2 ^ 32)
    if 1 ≤ ratio then 2 ^ 32 else rne (-2 ^ 32 * ln (rne (1 - ratio)))
  else rawE

/-- The nearest integer of a real, ties to even. -/
noncomputable def nearestEvenReal (x : ℝ) : Int :=
  let f := ⌊x⌋
  if x - f < 1 / 2 then f else if 1 / 2 < x - f then f + 1 else if f % 2 = 0 then f else f + 1

/-- The correctly rounded natural logarithm, `ln(1) = 0` included (R163). -/
noncomputable def lnRounded (x : ℚ) : ℚ :=
  let y := Real.log (x : ℝ)
  if y = 0 then 0 else nearestEvenReal (y / (2 : ℝ) ^ (Int.log 2 |y| - 52)) * twoPow (Int.log 2 |y| - 52)

/-- `bits64(e)` of a finite value `>= 0` (R164): biased exponent and fraction; 0 is `+0.0`. -/
def bits64 (x : ℚ) : Word :=
  if x = 0 then 0
  else BitVec.ofInt 64 ((exponent x + 1023) * 2 ^ 52 + ((x / twoPow (exponent x - 52)).floor - 2 ^ 52))

/-- `RefEval(B, r)` (R163) as the pattern a response would carry. -/
noncomputable def refEval (B : Precision) (r : List Byte) : Word := bits64 (refEvalWith lnRounded B r)

end Sys2Proof.Machine
end

