-- ==== Sys2Proof/Machine/Sequence.lean ====
section
/-! DEFINITION. Command sequences (R60: the state after a sequence is the fold of the commands over it), and the
host's pseudo-instructions and assembler syntax (R91, R92), which SK never sees. -/

namespace Sys2Proof.Machine

/-- Go on with `f` where the outcome is a next state; a stop stays. -/
def andThen (o : Host.Outcome State Fault Refusal) (f : State → Host.Outcome State Fault Refusal) :
    Host.Outcome State Fault Refusal :=
  match o with
  | .next s => f s
  | .fault r => .fault r
  | .refused r => .refused r

/-- The commands executed one at a time in order (R60). -/
def execAll : List Instr → State → Host.Outcome State Fault Refusal
  | [], s => .next s
  | i :: rest, s => andThen (exec i s) (execAll rest)

/-- The command words of a sequence, as the host presents them (R80). -/
def asInputs (cmds : List Instr) : List HostInput := cmds.map (fun i => .command (encode i))

/-- `ADDITEM item` (R92): the host hashes, SK adds. The hash capability `H` is the host's parameter. -/
def addItem (H : List Byte → U32) (item : List Byte) : Instr := .add (H item)

/-- `SET i, r0; SET i+1, r1; ...` -/
def injectFrom (i : Nat) : List Byte → List Instr
  | [] => []
  | v :: rest => .set (BitVec.ofNat 32 i) v :: injectFrom (i + 1) rest

/-- `INJECT r0, r1, ..., r(m-1)` (R92): direct injection of every register. -/
def inject (r : List Byte) : List Instr := injectFrom 0 r

/-- `FILL r` (R92): every register the same value. -/
def fill (B : Precision) (v : Byte) : List Instr := inject (List.replicate B.m v)

/-- The line `.config B=<n>, VARIANT=<...>` that names the construction parameters of a program (R91). -/
def configLine (B : Precision) (v : Variant) : String :=
  ".config B=" ++ toString B.val ++ ", VARIANT=" ++
    match v with
    | .packed => "PACKED"
    | .unpacked => "UNPACKED"

/-- A command in the syntax of R91, its operands in decimal. -/
def assembly : Instr → String
  | .get i => "GET " ++ toString i.toNat
  | .set i v => "SET " ++ toString i.toNat ++ ", " ++ toString v.toNat
  | .add d => "ADD " ++ toString d.toNat
  | .estimate => "ESTIMATE"
  | .reset => "RESET"
  | .rdb => "RDB"
  | .rdm => "RDM"
  | .rdfoot => "RDFOOT"

end Sys2Proof.Machine
end

