-- ==== Sys2Proof/Safety.lean ====
section
/-! DEFINITION. What counts as a safe run, and the predicates the statements are written in. -/

namespace Sys2Proof.Machine

/-- The outcome is a next state: neither a fault nor a refusal. -/
def Completes (o : Host.Outcome State Fault Refusal) : Prop := ∃ t, o = .next t

/-- The input is one the spec gives a meaning to: any command word (R234), or a power-on whose strap is in
`[0, 32]` (R212). -/
def HostInput.admitted : HostInput → Bool
  | .powerOn cfgB _ => strapWellFormed cfgB
  | .command _ => true

/-- A safe start: the storage fits the precision, and every input the host has sent is one it may send. -/
def State.Safe (s : State) : Prop := s.wf = true ∧ s.inputs.all HostInput.admitted = true

/-- How many command words stand in the inputs; each is owed one response (R80). -/
def commandCount (inputs : List HostInput) : Nat :=
  inputs.countP (fun x => match x with | .command _ => true | .powerOn _ _ => false)

/-- Every register lies in `[0, maxBits + 1]` (R22). -/
def RanksBounded (s : State) : Prop := ∀ i, i < s.B.m → (s.reg i).toNat ≤ s.B.maxBits + 1

/-- The sketch is empty (R35). -/
def EmptySketch (s : State) : Prop := ∀ i, i < s.B.m → s.reg i = 0

/-- Two blocks of one precision that hold the same register view (R34). -/
def SameView (s t : State) : Prop := s.B = t.B ∧ ∀ i, i < s.B.m → s.reg i = t.reg i

/-- The properties F2 and F3 of R162 and R163, for an evaluation of the estimate. -/
structure Admissible (F : Precision → List Byte → Word) : Prop where
  /-- F2: `+0.0` when every register is 0 -/
  empty : ∀ B r, (∀ x ∈ r, x = 0) → F B r = 0
  /-- F3: finite and `>= +0.0` -/
  finite : ∀ B r, f64Admissible (F B r) = true

end Sys2Proof.Machine
end

