-- ==== Sys2Proof/Certificates/Slice0/Obligations.lean ====
section
/-! DEFINITION. The statements about SK for the provers. -/

open Sys2Proof Sys2Proof.Machine

/-! ## Encoding and decoding (spec/30_encoding.md) -/

/-- Decoding an encoded command gives the command back, every operand at every value of its field: the layout of
R81 read through the match and mask table of R84. -/
def Obligations.DecodeEncodeRoundTrip : Prop :=
  ∀ i : Instr, decode (encode i) = .ok i

/-- A word that decodes is the encoding of what it decodes to: no bit of a legal command word is ignored
(R83, R87). -/
def Obligations.EncodeDecodeRoundTrip : Prop :=
  ∀ (c : Word) (i : Instr), decode c = .ok i → encode i = c

/-- A command word selects at most one row of R84 (R83). -/
def Obligations.OpcodeRowsDoNotOverlap : Prop :=
  ∀ (o p : Op) (c : Word), o.selectedBy c = true → p.selectedBy c = true → o = p

/-- The words of spec/95_test_vectors.md section 2.5 decode as its table says; "illegal" is a word that decodes to
no command. -/
def Obligations.SampleWordsDecode : Prop :=
  decode 0x1000000000000003 = .ok (.get 3) ∧
  decode 0x2000002A0000000A = .ok (.set 10 0x2A) ∧
  decode 0x200000FF00000000 = .ok (.set 0 0xFF) ∧
  decode 0x30000000DEADBEEF = .ok (.add 0xDEADBEEF) ∧
  decode 0x4000000000000000 = .ok .estimate ∧
  decode 0x5000000000000000 = .ok .reset ∧
  decode 0x6000000000000000 = .ok .rdb ∧
  decode 0x7000000000000000 = .ok .rdm ∧
  decode 0x8000000000000000 = .ok .rdfoot ∧
  (∀ c ∈ [(0x0000000000000000 : Word), 0x3000000100000000, 0x4000000000000001, 0x9000000000000000,
      0xF000000000000000, 0x2800000000000000, 0x2000010000000000], (decode c).toOption = none)

/-! ## The step and the command port (R80, R202, R230) -/

/-- When the host's next input is a word that decodes to `i`, the step is `exec i` on the state with that input
taken. -/
def Obligations.StepRunsDecodedCommand : Prop :=
  ∀ (s : State) (c : Word) (rest : List HostInput) (i : Instr),
    s.inputs = .command c :: rest → decode c = .ok i →
      step s = exec i { s with inputs := rest }

/-- The illegal words are exactly those with an unassigned opcode, a non-zero reserved field or a non-zero unused
operand field (R87, R90), whatever the index (R205); the step answers such a word with `ILLEGAL_COMMAND`,
`data = 0`, and changes nothing else (R202). -/
def Obligations.IllegalWordsAreAnswered : Prop :=
  ∀ (s : State) (c : Word) (rest : List HostInput), s.inputs = .command c :: rest →
    ((∀ i, decode c ≠ .ok i) ↔
      (opField c = 0x0 ∨ 0x9 ≤ opField c ∨ rsvField c ≠ 0 ∨ (opField c ≠ 0x2 ∧ vField c ≠ 0) ∨
        (0x4 ≤ opField c ∧ aField c ≠ 0))) ∧
    ((∀ i, decode c ≠ .ok i) →
      step s = .next { s with inputs := rest, responses := s.responses ++ [⟨.illegalCommand, 0⟩] })

/-- Without an input the state does not change (R234: "What SK may never do: change state without a command").
That such a step is taken at all is the model's convention (assumption log 2). -/
def Obligations.StepWithoutInputChangesNothing : Prop :=
  ∀ s : State, s.inputs = [] → step s = .next s

/-- Power-on samples the straps and clears the whole storage (R230); a strap of 33 to 63 is refused (R212). That a
power-on stands among the inputs and delivers no response is the model's convention (assumption log 2). -/
def Obligations.PowerOnSamplesStraps : Prop :=
  ∀ (s : State) (cfgB : BitVec 6) (v : Variant) (rest : List HostInput),
    s.inputs = .powerOn cfgB v :: rest →
      (cfgB.toNat ≤ 32 → ∃ t, step s = .next t ∧ t.B.val = cfgB.toNat ∧ t.variant = v ∧
        t.storage = Storage.empty v ∧ (∀ p, t.storage.bit p = false) ∧
        t.inputs = rest ∧ t.responses = s.responses) ∧
      (32 < cfgB.toNat → step s = .refused (.strapOutOfRange cfgB))

/-- Every command word, legal or not, is answered by exactly one response, after the ones before it (R80); no
command changes the precision or the variant (R5); an error has `data = 0` and changes no storage (R201). -/
def Obligations.EveryCommandAnsweredOnce : Prop :=
  ∀ (s : State) (c : Word) (rest : List HostInput), s.inputs = .command c :: rest →
    ∃ t r, step s = .next t ∧ t.inputs = rest ∧ t.responses = s.responses ++ [r] ∧
      t.B = s.B ∧ t.variant = s.variant ∧
      (r.status ≠ .ok → r.data = 0 ∧ t.storage = s.storage)

/-- R200: every valid command responds `OK`, in every state and for every `B`. -/
def Obligations.ValidCommandsAnswerOk : Prop :=
  ∀ (i : Instr) (s : State), i.wellFormed s.B = true →
    ∃ t d, exec i s = .next t ∧ t.responses = s.responses ++ [⟨.ok, d⟩]

/-- `GET` and `SET` with `i >= m` are answered with `INDEX_RANGE`, `data = 0`, and nothing else changes; at
`B = 32` no index is out of range (R203). -/
def Obligations.IndexOutOfRangeIsAnswered : Prop :=
  (∀ (i : U32) (s : State), s.B.m ≤ i.toNat →
    exec (.get i) s = .next { s with responses := s.responses ++ [⟨.indexRange, 0⟩] } ∧
    ∀ v, exec (.set i v) s = .next { s with responses := s.responses ++ [⟨.indexRange, 0⟩] }) ∧
  (∀ i : U32, i.toNat < Precision.m 32)

/-- Only `GET` and `SET` with `i >= m` are answered with `INDEX_RANGE` (R203). -/
def Obligations.OnlyIndexErrorsRaiseIndexRange : Prop :=
  ∀ (i : Instr) (s t : State) (d : Word), exec i s = .next t →
    t.responses = s.responses ++ [⟨.indexRange, d⟩] →
    ∃ j : U32, s.B.m ≤ j.toNat ∧ (i = .get j ∨ ∃ v, i = .set j v)

/-- From a safe start the run takes every input, stops nowhere, and delivers one response for each command word
(R80, R208: every command terminates). That a power-on stands among the inputs, takes a step of its own and delivers
no response, so that the count leaves it out, is the model's choice and no part of R80 (assumption log 2). -/
def Obligations.SafeRunAnswersEveryCommand : Prop :=
  ∀ s : State, s.Safe →
    ∃ t, Host.Core.run Sys2Proof.core s.inputs.length s = .next t ∧ State.Safe t ∧ State.inputs t = [] ∧
      (State.responses t).length = s.responses.length + commandCount s.inputs

/-- A command leaves the configuration alone; only a power-on can change it (R5, R20: "immutable thereafter"). -/
def Obligations.OnlyPowerOnChangesConfiguration : Prop :=
  ∀ s t : State, step s = .next t → (t.B ≠ s.B ∨ t.variant ≠ s.variant) →
    ∃ cfgB v rest, s.inputs = .powerOn cfgB v :: rest

/-! ## Reset and the storage invariant (R20, R25, R32) -/

/-- The state after power-on: every storage bit 0, every register 0, and the storage fits the precision (R32).
The straps of the reset state are the model's choice (assumption log 1). -/
def Obligations.ResetIsEmpty : Prop :=
  State.reset.wf = true ∧ (∀ p, State.reset.storage.bit p = false) ∧ (∀ i, State.reset.reg i = 0)

/-- Every step keeps a storage that fits its precision: canonical, inside the backing space, the padding 0
(R24, R25, R50). -/
def Obligations.StepKeepsStorageFit : Prop :=
  ∀ s t : State, s.wf = true → step s = .next t → t.wf = true

/-- No command reads the padding (R25): two packed blocks whose stream bits agree below `6m` answer every command
alike, and agree below `6m` afterwards. -/
def Obligations.PaddingIsNeverRead : Prop :=
  ∀ (i : Instr) (s t : State), s.B = t.B → s.variant = .packed → t.variant = .packed →
    s.responses = t.responses → (∀ p, p < 6 * s.B.m → s.storage.bit p = t.storage.bit p) →
    ∃ s' t', exec i s = .next s' ∧ exec i t = .next t' ∧ s'.responses = t'.responses ∧
      ∀ p, p < 6 * s.B.m → s'.storage.bit p = t'.storage.bit p

/-- The storage is determined by the register view on the states that fit their precision, so words and registers
are in bijection there (R119). -/
def Obligations.StorageDeterminedByRegisters : Prop :=
  ∀ s t : State, s.wf = true → t.wf = true → s.B = t.B → s.variant = t.variant →
    (∀ i, i < s.B.m → s.reg i = t.reg i) → s.storage = t.storage

/-! ## The register array: GET and SET (R50 to R55, R110 to R118) -/

/-- Where a register straddles two words: exactly at `i mod 32 = 10` and `i mod 32 = 21`; offsets are even, and the
second word exists for every `i < m` (R53, R54). -/
def Obligations.StraddlingIndices : Prop :=
  ∀ i : Nat, (shift i = 60 ↔ i % 32 = 10) ∧ (shift i = 62 ↔ i % 32 = 21) ∧
    (straddles i = true ↔ shift i = 60 ∨ shift i = 62) ∧ shift i % 2 = 0 ∧
    (∀ B : Precision, i < B.m → wordIndex i < B.W ∧ (straddles i = true → wordIndex i + 1 < B.W))

/-- The layout: bit `k` of packed register `i` is stream position `6i + k`, bit `(6i + k) mod 64` of
`words[(6i + k) div 64]` (R51); an unpacked register is its cell (R55). -/
def Obligations.RegisterIsItsStreamBits : Prop :=
  (∀ (words : Memory 64) (i k : Nat), ((Storage.packed words).get i).getLsbD k =
    (decide (k < 6) && (words.read ((6 * i + k) / 64)).getLsbD ((6 * i + k) % 64))) ∧
  (∀ (cells : Memory 8) (i : Nat), (Storage.unpacked cells).get i = cells.read i)

/-- `GET i` with `i < m` responds with `reg[i]` zero-extended, at most `registerMax`, and changes nothing but the
responses (R86, R113). -/
def Obligations.GetAnswersRegister : Prop :=
  ∀ (i : U32) (s : State), i.toNat < s.B.m →
    exec (.get i) s =
      .next { s with responses := s.responses ++ [⟨.ok, (s.reg i.toNat).setWidth 64⟩] } ∧
    (s.reg i.toNat).toNat ≤ s.variant.registerMax

/-- `SET i, v` with `i < m` responds `OK` with 0 and stores the low `bitsPerRegister` bits of `v` in the bits of
register `i`; every other bit of the storage, padding included, every other register and everything else of the
state is unchanged (R112, R114, R117). -/
def Obligations.SetWritesOnlyItsField : Prop :=
  ∀ (i : U32) (v : Byte) (s : State), i.toNat < s.B.m →
    ∃ t, exec (.set i v) s = .next t ∧ t.B = s.B ∧ t.variant = s.variant ∧ t.inputs = s.inputs ∧
      t.responses = s.responses ++ [⟨.ok, 0⟩] ∧
      ∀ p, t.storage.bit p =
        if s.variant.bitsPerRegister * i.toNat ≤ p ∧
            p < s.variant.bitsPerRegister * i.toNat + s.variant.bitsPerRegister
        then v.getLsbD (p - s.variant.bitsPerRegister * i.toNat)
        else s.storage.bit p

/-- R115: after `SET i, v`, `GET i` responds with `v & registerMax`, for both variants, every `i < m` and every
`v`. -/
def Obligations.SetThenGetRoundTrip : Prop :=
  ∀ (i : U32) (v : Byte) (s : State), i.toNat < s.B.m →
    ∃ t, execAll [.set i v, .get i] s = .next t ∧
      t.responses = s.responses ++
        [⟨.ok, 0⟩, ⟨.ok, (v &&& BitVec.ofNat 8 s.variant.registerMax).setWidth 64⟩]

/-- R116: `SET i, v` leaves every other register's value unchanged, also in a shared word, also when register `i`
straddles. -/
def Obligations.SetLeavesOtherRegisters : Prop :=
  ∀ (i : U32) (v : Byte) (s : State), i.toNat < s.B.m →
    ∃ t, exec (.set i v) s = .next t ∧ ∀ j, j ≠ i.toNat → t.reg j = s.reg j

/-- `SET`s to two different indices commute, also when the registers share a word (R65). -/
def Obligations.SetsToDifferentIndicesCommute : Prop :=
  ∀ (i j : U32) (v u : Byte) (s : State), s.wf = true → i.toNat < s.B.m → j.toNat < s.B.m → i ≠ j →
    ∃ t, execAll [.set i v, .set j u] s = .next t ∧ execAll [.set j u, .set i v] s = .next t

/-- `INJECT r0, ..., r(m-1)` leaves every register with its value masked to the storage width (R92, R112). -/
def Obligations.InjectLoadsEveryRegister : Prop :=
  ∀ (r : List Byte) (s : State), r.length = s.B.m →
    ∃ t, execAll (inject r) s = .next t ∧ t.B = s.B ∧ t.variant = s.variant ∧
      t.registers = r.map (fun v => v &&& BitVec.ofNat 8 s.variant.registerMax)

/-! ## ADD (R130 to R139) -/

/-- The demultiplexer loses no bit of the digest: the bucket is its top `B` bits and in range, the tail its other
bits, left-aligned (R131, R132). -/
def Obligations.DemultiplexerLosesNoBit : Prop :=
  ∀ (B : Precision) (d : U32),
    bucket B d < B.m ∧ d.toNat = bucket B d * 2 ^ B.maxBits + (tailOf B d).toNat / 2 ^ B.val ∧
    (tailOf B d).toNat % 2 ^ B.val = 0

/-- The leading-zero counter examines the top `maxBits` bits of the tail and saturates at `maxBits`; for the tail
of a digest it is `maxBits` if the tail is 0 and the plain 32-bit count otherwise (R133). -/
def Obligations.LeadingZeroCountSaturates : Prop :=
  (∀ (B : Precision) (tail : U32), lzTop B tail = min tail.clz.toNat B.maxBits) ∧
  (∀ (B : Precision) (d : U32), lzTop B (tailOf B d) =
    if tailOf B d = 0 then B.maxBits else (tailOf B d).clz.toNat)

/-- R135: the rank lies in `[1, 33 - B]`; the upper bound is reached exactly by the digests whose low `maxBits`
bits are 0; rank `r <= maxBits` exactly when those bits are `r - 1` zeros and then a one; over all `B` the
largest rank is 33, at `B = 0` and `d = 0`. -/
def Obligations.RankRange : Prop :=
  (∀ (B : Precision) (d : U32),
    1 ≤ rankOfDigest B d ∧ rankOfDigest B d ≤ 33 - B.val ∧
    (rankOfDigest B d = 33 - B.val ↔ d.toNat % 2 ^ B.maxBits = 0) ∧
    (∀ r, 1 ≤ r → r ≤ B.maxBits →
      (rankOfDigest B d = r ↔
        2 ^ (B.maxBits - r) ≤ d.toNat % 2 ^ B.maxBits ∧
        d.toNat % 2 ^ B.maxBits < 2 ^ (B.maxBits - r + 1)))) ∧
  (∀ (B : Precision) (d : U32), rankOfDigest B d ≤ 33) ∧ rankOfDigest 0 0 = 33

/-- `ADD d` responds `OK` with 0 and stores exactly `max(reg[idx], rank)` in the register of its bucket, the mask
of `set` never changing it; every other register, every storage bit outside that register and everything else of
the state is unchanged (R130, R134, R136). -/
def Obligations.AddMaxUpdatesOneRegister : Prop :=
  ∀ (d : U32) (s : State), ∃ t, exec (.add d) s = .next t ∧
    t.B = s.B ∧ t.variant = s.variant ∧ t.inputs = s.inputs ∧
    t.responses = s.responses ++ [⟨.ok, 0⟩] ∧
    (t.reg (bucket s.B d)).toNat = max (s.reg (bucket s.B d)).toNat (rankOfDigest s.B d) ∧
    (∀ j, j ≠ bucket s.B d → t.reg j = s.reg j) ∧
    (∀ p, p < s.variant.bitsPerRegister * bucket s.B d ∨
        s.variant.bitsPerRegister * bucket s.B d + s.variant.bitsPerRegister ≤ p →
      t.storage.bit p = s.storage.bit p)

/-- R137: `ADD d ; ADD d` leaves the same registers as `ADD d`, and the same storage where the storage fits its
precision, which every step keeps. -/
def Obligations.AddIsIdempotent : Prop :=
  ∀ (d : U32) (s : State), ∃ t u, exec (.add d) s = .next t ∧ exec (.add d) t = .next u ∧
    (∀ i, u.reg i = t.reg i) ∧ (s.wf = true → u.storage = t.storage)

/-- R138: every permutation of a sequence of `ADD`s leaves the same state, and the state is the one formula: each
register the maximum of its start value and the ranks of the digests that fall in its bucket. -/
def Obligations.AddsFoldToMaximumInAnyOrder : Prop :=
  (∀ (ds ds' : List U32) (s : State), s.wf = true → ds.Perm ds' →
    ∃ t, execAll (ds.map .add) s = .next t ∧ execAll (ds'.map .add) s = .next t) ∧
  (∀ (ds : List U32) (s : State), ∃ t, execAll (ds.map .add) s = .next t ∧
    ∀ i, i < s.B.m → (t.reg i).toNat =
      max (s.reg i).toNat
        (((ds.filter (fun d => bucket s.B d == i)).map (fun d => rankOfDigest s.B d)).foldr max 0))

/-- R139: `ADD` decreases no register, changes none but its bucket's, and leaves that one not 0. -/
def Obligations.AddIsMonotone : Prop :=
  ∀ (d : U32) (s : State), ∃ t, exec (.add d) s = .next t ∧
    (∀ i, i < s.B.m → (s.reg i).toNat ≤ (t.reg i).toNat ∧ (i ≠ bucket s.B d → t.reg i = s.reg i)) ∧
    t.reg (bucket s.B d) ≠ 0

/-- No command but `SET` takes a register out of `[0, maxBits + 1]` (R22, C1); the reset state has every register
in it (its straps are the model's choice, assumption log 1). -/
def Obligations.RanksStayBounded : Prop :=
  RanksBounded State.reset ∧
  ∀ (i : Instr) (s t : State), RanksBounded s → (∀ j v, i ≠ .set j v) → exec i s = .next t → RanksBounded t

/-- The only commands that can lower a register are `SET` to it and `RESET` (R180, R23). -/
def Obligations.OnlySetAndResetLowerARegister : Prop :=
  ∀ (i : Instr) (s t : State) (k : Nat), k < s.B.m → exec i s = .next t →
    (t.reg k).toNat < (s.reg k).toNat → i = .reset ∨ ∃ j v, i = .set j v ∧ j.toNat = k

/-- For commands whose `SET` values are at most 63, a packed and an unpacked block that start with the same
register view end with the same view and answer alike, command by command, but for `RDFOOT`; with `SET 0, 100`
they differ (R34). -/
def Obligations.VariantsAgree : Prop :=
  (∀ (cmds : List Instr) (s t : State), SameView s t → s.variant = .packed → t.variant = .unpacked →
    (∀ j v, .set j v ∈ cmds → v.toNat ≤ 63) →
    ∃ s' t' rs rt, execAll cmds s = .next s' ∧ execAll cmds t = .next t' ∧ SameView s' t' ∧
      s'.responses = s.responses ++ rs ∧ t'.responses = t.responses ++ rt ∧
      rs.length = cmds.length ∧ rt.length = cmds.length ∧
      ∀ k : Nat, cmds[k]? ≠ some Instr.rdfoot → rs[k]? = rt[k]?) ∧
  (∀ s t : State, s.variant = .packed → t.variant = .unpacked →
    ∃ s' t', exec (.set 0 100) s = .next s' ∧ exec (.set 0 100) t = .next t' ∧
      s'.reg 0 = 36 ∧ t'.reg 0 = 100)

/-! ## ESTIMATE (R150 to R163) -/

/-- `ESTIMATE` responds `OK` with `F64Eval` of the precision and the register values in index order, and changes
nothing but the responses (R150, R86). -/
def Obligations.EstimateAnswersFromRegisters : Prop :=
  ∀ s : State, exec .estimate s =
    .next { s with responses := s.responses ++ [⟨.ok, f64Eval s.B ((List.range s.B.m).map s.reg)⟩] }

/-- R161 (F1): two blocks with the same precision and register values answer `ESTIMATE` with the same 64 bits,
whatever their variants and histories. -/
def Obligations.EstimateDependsOnRegistersOnly : Prop :=
  ∀ s t : State, SameView s t →
    ∃ s' t' d, exec .estimate s = .next s' ∧ exec .estimate t = .next t' ∧
      s'.responses = s.responses ++ [⟨.ok, d⟩] ∧ t'.responses = t.responses ++ [⟨.ok, d⟩]

/-- `EstimatorCorrection` is separable: a host that issues `GET 0` to `GET m-1` and applies the same `F64Eval` to the
values it is answered with obtains what `ESTIMATE` responds with (R159). -/
def Obligations.EstimateFromGetResponses : Prop :=
  ∀ s : State, ∃ t u rs,
    execAll ((List.range s.B.m).map (fun i => .get (BitVec.ofNat 32 i))) s = .next t ∧
    t.responses = s.responses ++ rs ∧ (∀ r ∈ rs, r.status = .ok) ∧
    exec .estimate s = .next u ∧
    u.responses = s.responses ++ [⟨.ok, f64Eval s.B (rs.map (fun r => r.data.setWidth 8))⟩]

/-- R162 (F2): with every register 0, `ESTIMATE` responds with `+0.0`, for every `B` and both variants. -/
def Obligations.EmptySketchEstimatesZero : Prop :=
  ∀ s : State, EmptySketch s →
    exec .estimate s = .next { s with responses := s.responses ++ [⟨.ok, 0x0000000000000000⟩] }

/-- `ESTIMATE` responds with a finite binary64 pattern that is not below `+0.0` (R163, F3; that the pattern `-0.0`
counts as such is the model's reading, assumption log 4). -/
def Obligations.EstimateIsFiniteNonNegative : Prop :=
  ∀ s : State, ∃ t d, exec .estimate s = .next t ∧ t.responses = s.responses ++ [⟨.ok, d⟩] ∧
    d.extractLsb' 52 11 ≠ 0x7FF ∧ (d.getLsbD 63 = true → d.extractLsb' 0 63 = 0)

/-- The open parameter is left as open as the spec leaves it: every evaluation with F2 and F3 is admitted, and
nothing without them is (R160). -/
def Obligations.EstimateAdmitsEveryEvaluation : Prop :=
  (∀ F, Admissible F → f64Constrain F = F) ∧ (∀ raw, Admissible (f64Constrain raw))

/-- `RefEval` answers the empty sketch with exactly `+0.0`, for every `B` (R163: it satisfies F2). -/
def Obligations.RefEvalEmptyIsZero : Prop :=
  ∀ B : Precision, refEval B (List.replicate B.m 0) = 0

/-- With all registers at most 33 and `B <= 20`, the sum of `RefEval` is the exact one, so it does not depend on the
order of accumulation (R165). -/
def Obligations.RefEvalSumIsExact : Prop :=
  ∀ (B : Precision) (r : List Byte), B.val ≤ 20 → r.length = B.m → (∀ x ∈ r, x.toNat ≤ 33) →
    refSum r = registerSum r ∧ ∀ r', r.Perm r' → refSum r' = refSum r

/-- The sum is positive and bounded, so no division by zero exists, and the raw estimate has the bounds of R152;
`alpha` lies strictly between 0 and 0.7213 (R151). -/
def Obligations.RawEstimateBounds : Prop :=
  (∀ m : Nat, 1 ≤ m → 0 < alpha m ∧ alpha m < 7213 / 10000) ∧
  (∀ (B : Precision) (r : List Byte) (v : Variant), r.length = B.m → (∀ x ∈ r, x.toNat ≤ v.registerMax) →
    0 < registerSum r ∧ (B.m : ℚ) / 2 ^ v.registerMax ≤ registerSum r ∧ registerSum r ≤ B.m ∧
    alpha B.m * B.m ≤ rawE B r ∧ rawE B r ≤ alpha B.m * B.m * 2 ^ v.registerMax)

/-- The branch order can matter only for `B >= 26`, and where both range tests hold the small-range branch is taken
(R154). -/
def Obligations.BranchOrderMattersFromPrecision26 : Prop :=
  ∀ (B : Precision) (r : List Byte), smallRange B r → largeRange B r →
    26 ≤ B.val ∧ (estBranch B r = .lc ∨ estBranch B r = .smallRaw)

/-- `EstReal` is never negative, and 0 exactly for the empty sketch (R156, R158). -/
def Obligations.ExactEstimateZeroOnlyWhenEmpty : Prop :=
  ∀ (B : Precision) (r : List Byte), r.length = B.m →
    0 ≤ estReal B r ∧ (estReal B r = 0 ↔ ∀ x ∈ r, x = 0)

/-- `EstReal` depends on the registers only through the multiset of their values (R156). -/
def Obligations.ExactEstimateIgnoresOrder : Prop :=
  ∀ (B : Precision) (r r' : List Byte), r.Perm r' → estReal B r = estReal B r'

/-! ## RESET and the accessors (R180 to R184, R231) -/

/-- `RESET` responds `OK` with 0 and clears every storage bit, registers and padding; the precision, the variant and
the inputs stay (R180). -/
def Obligations.ResetClearsStorage : Prop :=
  ∀ s : State, ∃ t, exec .reset s = .next t ∧
    t.B = s.B ∧ t.variant = s.variant ∧ t.inputs = s.inputs ∧ t.responses = s.responses ++ [⟨.ok, 0⟩] ∧
    (∀ p, t.storage.bit p = false) ∧ (∀ i, t.reg i = 0)

/-- `RESET` and a power-on with the block's own straps produce the same storage (R231). -/
def Obligations.ResetEqualsPowerOn : Prop :=
  ∀ s : State, ∃ t u, exec .reset s = .next t ∧
    State.powerOn (BitVec.ofNat 6 s.B.val) s.variant s = .next u ∧
    t.storage = u.storage ∧ t.B = u.B ∧ t.variant = u.variant

/-- `RDB`, `RDM` and `RDFOOT` respond `OK` with `B`, `2^B` and the footprint, and change nothing but the responses
(R181, R182, R183). -/
def Obligations.AccessorsAnswerParameters : Prop :=
  ∀ s : State,
    exec .rdb s = .next { s with responses := s.responses ++ [⟨.ok, BitVec.ofNat 64 s.B.val⟩] } ∧
    exec .rdm s = .next { s with responses := s.responses ++ [⟨.ok, BitVec.ofNat 64 (2 ^ s.B.val)⟩] } ∧
    (s.variant = .packed → exec .rdfoot s =
      .next { s with responses := s.responses ++ [⟨.ok, BitVec.ofNat 64 (8 * ((2 ^ s.B.val * 6 + 63) / 64))⟩] }) ∧
    (s.variant = .unpacked → exec .rdfoot s =
      .next { s with responses := s.responses ++ [⟨.ok, BitVec.ofNat 64 (2 ^ s.B.val)⟩] })

/-- The packed footprint is `ceil(6m/8)` rounded up to a multiple of 8; `W` words are just enough for the `6m` bits;
for `B >= 5` there is no rounding (R7, R183). -/
def Obligations.FootprintIsTheWordsHeld : Prop :=
  ∀ B : Precision,
    footprint B .packed = ((6 * B.m + 7) / 8 + 7) / 8 * 8 ∧
    6 * B.m ≤ 64 * B.W ∧ 64 * (B.W - 1) < 6 * B.m ∧
    (5 ≤ B.val → B.W = 3 * 2 ^ (B.val - 5) ∧ 64 * B.W = 6 * B.m) ∧
    footprint B .packed < 2 ^ 64 ∧ B.m < 2 ^ 64

/-- `GET`, `ESTIMATE`, `RDB`, `RDM` and `RDFOOT` change nothing but the responses, also where `GET` is answered with
an error (R33, R59). -/
def Obligations.ReadCommandsChangeNothing : Prop :=
  ∀ (i : Instr) (s t : State), (∀ j v, i ≠ .set j v) → (∀ d, i ≠ .add d) → i ≠ .reset →
    exec i s = .next t → ∃ r, t = { s with responses := s.responses ++ [r] }
end

