-- ==== Sys2Proof/Laws/Decode.lean ====
section
/-! SUPPORT. The fields of a command word: what each field of an encoded word reads as. -/

namespace Sys2Proof

/-- Every bit of a command word, by field (R81). -/
theorem getLsbD_commandWord (op : BitVec 4) (v : Byte) (a : U32) (k : Nat) :
    (commandWord op v a).getLsbD k =
      if k < 32 then a.getLsbD k
      else if k < 40 then v.getLsbD (k - 32)
      else if k < 60 then false
      else op.getLsbD (k - 60) := by
  simp only [commandWord, BitVec.getLsbD_append]
  by_cases h1 : k < 32
  · simp [h1]
  by_cases h2 : k < 40
  · simp [h1, h2, show k - 32 < 8 by omega]
  by_cases h3 : k < 60
  · simp [h1, h2, h3, show ¬ k - 32 < 8 by omega, show k - 32 - 8 < 20 by omega]
  · simp [h1, h2, h3, show ¬ k - 32 < 8 by omega, show ¬ k - 32 - 8 < 20 by omega,
      show k - 32 - 8 - 20 = k - 60 by omega]

@[simp] theorem opField_commandWord (op : BitVec 4) (v : Byte) (a : U32) :
    opField (commandWord op v a) = op := by
  apply BitVec.eq_of_getLsbD_eq
  intro k hk
  simp only [opField, BitVec.getLsbD_extractLsb', getLsbD_commandWord]
  rw [if_neg (by omega), if_neg (by omega), if_neg (by omega), show 60 + k - 60 = k by omega]
  simp [hk]

@[simp] theorem rsvField_commandWord (op : BitVec 4) (v : Byte) (a : U32) :
    rsvField (commandWord op v a) = 0 := by
  apply BitVec.eq_of_getLsbD_eq
  intro k hk
  simp only [rsvField, BitVec.getLsbD_extractLsb', getLsbD_commandWord]
  rw [if_neg (by omega), if_neg (by omega), if_pos (by omega)]
  simp

@[simp] theorem vField_commandWord (op : BitVec 4) (v : Byte) (a : U32) :
    vField (commandWord op v a) = v := by
  apply BitVec.eq_of_getLsbD_eq
  intro k hk
  simp only [vField, BitVec.getLsbD_extractLsb', getLsbD_commandWord]
  rw [if_neg (by omega), if_pos (by omega), show 32 + k - 32 = k by omega]
  simp [hk]

@[simp] theorem aField_commandWord (op : BitVec 4) (v : Byte) (a : U32) :
    aField (commandWord op v a) = a := by
  apply BitVec.eq_of_getLsbD_eq
  intro k hk
  simp only [aField, BitVec.getLsbD_extractLsb', getLsbD_commandWord]
  rw [if_pos (by omega)]
  simp [hk]

theorem mem_opcodeTable (o : Op) : o ∈ opcodeTable := by
  cases o <;> decide

end Sys2Proof
end

