-- ==== Sys2Proof/Laws/Memory.lean ====
section
/-! SUPPORT. The laws of the sparse memory: a read after a write, the canonical form kept by every operation, and
equality of canonical memories from equality of their reads. -/

namespace Sys2Proof.Machine

variable {n : Nat}

@[simp] theorem Memory.read_nil (a : Nat) : Memory.read ([] : Memory n) a = 0 := rfl

theorem Memory.read_cons (b : Nat) (x : BitVec n) (m : Memory n) (a : Nat) :
    Memory.read ((b, x) :: m) a = if b = a then x else Memory.read m a := rfl

/-- A memory that lists no entry at `a` reads as 0 there. -/
theorem Memory.read_eq_zero_of_absent (m : Memory n) (a : Nat) (h : ∀ c ∈ m, c.1 ≠ a) : m.read a = 0 := by
  induction m with
  | nil => rfl
  | cons c m ih =>
    obtain ⟨b, x⟩ := c
    rw [Memory.read_cons, if_neg (h (b, x) (by simp))]
    exact ih fun c hc => h c (by simp [hc])

theorem Memory.erase_absent (m : Memory n) (a : Nat) : ∀ c ∈ m.erase a, c.1 ≠ a := by
  intro c hc
  simpa using (List.mem_filter.mp hc).2

theorem Memory.read_erase (m : Memory n) (a b : Nat) :
    (m.erase a).read b = if b = a then 0 else m.read b := by
  induction m with
  | nil => simp [Memory.erase]
  | cons c m ih =>
    obtain ⟨k, x⟩ := c
    by_cases hk : k = a
    · have : Memory.erase ((k, x) :: m) a = Memory.erase m a := by simp [Memory.erase, hk]
      rw [this, ih, Memory.read_cons, hk]
      by_cases hb : b = a
      · simp [hb]
      · simp [hb, Ne.symm hb]
    · have : Memory.erase ((k, x) :: m) a = (k, x) :: Memory.erase m a := by simp [Memory.erase, hk]
      rw [this, Memory.read_cons, ih, Memory.read_cons]
      by_cases hb : b = a
      · subst hb; simp [hk]
      · simp [hb]

theorem Memory.read_insert (m : Memory n) (a : Nat) (x : BitVec n) (b : Nat) (h : ∀ c ∈ m, c.1 ≠ a) :
    (m.insert a x).read b = if b = a then x else m.read b := by
  induction m with
  | nil => simp [Memory.insert, Memory.read_cons, eq_comm]
  | cons c m ih =>
    obtain ⟨k, y⟩ := c
    have hk : k ≠ a := h (k, y) (by simp)
    have ih := ih fun c hc => h c (by simp [hc])
    unfold Memory.insert
    split
    · rw [Memory.read_cons]
      simp [eq_comm]
    · rw [Memory.read_cons, ih, Memory.read_cons]
      by_cases hb : b = a
      · subst hb; simp [hk]
      · simp [hb]

/-- A read after a write: the value written at its address, what was there before at every other. -/
theorem Memory.read_write (m : Memory n) (a : Nat) (x : BitVec n) (b : Nat) :
    (m.write a x).read b = if b = a then x else m.read b := by
  unfold Memory.write
  split
  · rename_i hx
    rw [Memory.read_erase, hx]
  · rw [Memory.read_insert _ _ _ _ (Memory.erase_absent m a), Memory.read_erase]
    split <;> rfl

theorem Memory.wf_cons (a : Nat) (x : BitVec n) (m : Memory n) :
    Memory.wf ((a, x) :: m) = true ↔ x ≠ 0 ∧ (∀ c ∈ m, a < c.1) ∧ Memory.wf m = true := by
  simp [Memory.wf, and_assoc]

theorem Memory.wf_erase (m : Memory n) (a : Nat) (h : m.wf = true) : (m.erase a).wf = true := by
  induction m with
  | nil => rfl
  | cons c m ih =>
    obtain ⟨k, x⟩ := c
    obtain ⟨hx, hlt, hm⟩ := (Memory.wf_cons k x m).mp h
    by_cases hk : k = a
    · have : Memory.erase ((k, x) :: m) a = Memory.erase m a := by simp [Memory.erase, hk]
      rw [this]; exact ih hm
    · have : Memory.erase ((k, x) :: m) a = (k, x) :: Memory.erase m a := by simp [Memory.erase, hk]
      rw [this]
      exact (Memory.wf_cons _ _ _).mpr ⟨hx, fun c hc => hlt c (List.mem_filter.mp hc).1, ih hm⟩

theorem Memory.mem_insert (m : Memory n) (a : Nat) (x : BitVec n) (c : Nat × BitVec n) :
    c ∈ m.insert a x ↔ c = (a, x) ∨ c ∈ m := by
  induction m with
  | nil => simp [Memory.insert]
  | cons d m ih =>
    obtain ⟨k, y⟩ := d
    unfold Memory.insert
    split
    · simp
    · simp only [List.mem_cons, ih]; tauto

theorem Memory.wf_insert (m : Memory n) (a : Nat) (x : BitVec n) (hx : x ≠ 0) (ha : ∀ c ∈ m, c.1 ≠ a)
    (h : m.wf = true) : (m.insert a x).wf = true := by
  induction m with
  | nil => exact (Memory.wf_cons a x []).mpr ⟨hx, by simp, rfl⟩
  | cons d m ih =>
    obtain ⟨k, y⟩ := d
    obtain ⟨hy, hlt, hm⟩ := (Memory.wf_cons k y m).mp h
    unfold Memory.insert
    split
    · rename_i hak
      refine (Memory.wf_cons _ _ _).mpr ⟨hx, fun c hc => ?_, h⟩
      rcases List.mem_cons.mp hc with rfl | hc
      · exact hak
      · exact lt_trans hak (hlt c hc)
    · rename_i hak
      refine (Memory.wf_cons _ _ _).mpr ⟨hy, fun c hc => ?_, ih (fun c hc => ha c (by simp [hc])) hm⟩
      rcases (Memory.mem_insert m a x c).mp hc with rfl | hc
      · have := ha (k, y) (by simp)
        simp only at this ⊢
        omega
      · exact hlt c hc

/-- Every write keeps the canonical form. -/
theorem Memory.wf_write (m : Memory n) (a : Nat) (x : BitVec n) (h : m.wf = true) :
    (m.write a x).wf = true := by
  unfold Memory.write
  split
  · exact Memory.wf_erase m a h
  · rename_i hx
    exact Memory.wf_insert _ a x hx (Memory.erase_absent m a) (Memory.wf_erase m a h)

/-- In a canonical memory an entry is what its address reads as. -/
theorem Memory.read_of_mem (m : Memory n) (h : m.wf = true) (c : Nat × BitVec n) (hc : c ∈ m) :
    m.read c.1 = c.2 := by
  induction m with
  | nil => simp at hc
  | cons d m ih =>
    obtain ⟨k, y⟩ := d
    obtain ⟨-, hlt, hm⟩ := (Memory.wf_cons k y m).mp h
    rw [Memory.read_cons]
    rcases List.mem_cons.mp hc with rfl | hc
    · simp
    · rw [if_neg (by have := hlt c hc; omega)]
      exact ih hm hc

/-- Every entry after the write is the written one or an old one at another address. -/
theorem Memory.mem_write (m : Memory n) (a : Nat) (x : BitVec n) (c : Nat × BitVec n) (hc : c ∈ m.write a x) :
    (c = (a, x) ∧ x ≠ 0) ∨ (c ∈ m ∧ c.1 ≠ a) := by
  unfold Memory.write at hc
  split at hc
  · exact .inr ⟨(List.mem_filter.mp hc).1, Memory.erase_absent m a c hc⟩
  · rcases (Memory.mem_insert _ _ _ _).mp hc with rfl | hc
    · exact .inl ⟨rfl, ‹_›⟩
    · exact .inr ⟨(List.mem_filter.mp hc).1, Memory.erase_absent m a c hc⟩

/-- Canonical memories that read the same everywhere are the same list. -/
theorem Memory.ext_of_read (m m' : Memory n) (h : m.wf = true) (h' : m'.wf = true)
    (hr : ∀ a, m.read a = m'.read a) : m = m' := by
  induction m generalizing m' with
  | nil =>
    cases m' with
    | nil => rfl
    | cons d m' =>
      obtain ⟨k, y⟩ := d
      have := hr k
      simp [Memory.read_cons] at this
      exact absurd this.symm ((Memory.wf_cons _ _ _).mp h').1
  | cons c m ih =>
    obtain ⟨k, x⟩ := c
    obtain ⟨hx, hlt, hm⟩ := (Memory.wf_cons k x m).mp h
    cases m' with
    | nil =>
      have := hr k
      simp [Memory.read_cons] at this
      exact absurd this hx
    | cons d m' =>
      obtain ⟨l, y⟩ := d
      obtain ⟨hy, hlt', hm'⟩ := (Memory.wf_cons l y m').mp h'
      have hz : ∀ a, a ≤ k → Memory.read m a = 0 := fun a ha =>
        Memory.read_eq_zero_of_absent _ _ fun c hc => by have := hlt c hc; omega
      have hz' : ∀ a, a ≤ l → Memory.read m' a = 0 := fun a ha =>
        Memory.read_eq_zero_of_absent _ _ fun c hc => by have := hlt' c hc; omega
      have hk := hr k
      have hl := hr l
      simp only [Memory.read_cons, if_true] at hk hl
      have hkl : k = l := by
        by_contra hne
        rw [if_neg (Ne.symm hne)] at hk
        rw [if_neg hne] at hl
        rcases Nat.lt_or_gt_of_ne hne with hlt1 | hgt1
        · rw [hz' k (by omega)] at hk; exact hx hk
        · rw [hz l (by omega)] at hl; exact hy hl.symm
      subst hkl
      simp only [if_true] at hk
      subst hk
      congr 1
      refine ih m' hm hm' fun a => ?_
      have ha := hr a
      simp only [Memory.read_cons] at ha
      by_cases hak : k = a
      · subst hak; rw [hz k le_rfl, hz' k le_rfl]
      · simpa [hak] using ha

end Sys2Proof.Machine
end

