-- ==== Sys2Proof/Laws/State.lean ====
section
/-! SUPPORT. One lemma per field per update of the state, and the variant and the register view through each
update, so that no proof unfolds a record update. -/

namespace Sys2Proof.Machine

variable (s : State)

@[simp] theorem State.setReg_B (i : Nat) (v : Byte) : (s.setReg i v).B = s.B := rfl
@[simp] theorem State.setReg_storage (i : Nat) (v : Byte) : (s.setReg i v).storage = s.storage.set i v := rfl
@[simp] theorem State.setReg_inputs (i : Nat) (v : Byte) : (s.setReg i v).inputs = s.inputs := rfl
@[simp] theorem State.setReg_responses (i : Nat) (v : Byte) : (s.setReg i v).responses = s.responses := rfl

@[simp] theorem State.clear_B : (s.clear).B = s.B := rfl
@[simp] theorem State.clear_storage : (s.clear).storage = Storage.empty s.variant := rfl
@[simp] theorem State.clear_inputs : (s.clear).inputs = s.inputs := rfl
@[simp] theorem State.clear_responses : (s.clear).responses = s.responses := rfl

@[simp] theorem State.deliver_B (r : Response) : (s.deliver r).B = s.B := rfl
@[simp] theorem State.deliver_storage (r : Response) : (s.deliver r).storage = s.storage := rfl
@[simp] theorem State.deliver_inputs (r : Response) : (s.deliver r).inputs = s.inputs := rfl
@[simp] theorem State.deliver_responses (r : Response) : (s.deliver r).responses = s.responses ++ [r] := rfl

@[simp] theorem State.respond_B (d : Word) : (s.respond d).B = s.B := rfl
@[simp] theorem State.respond_storage (d : Word) : (s.respond d).storage = s.storage := rfl
@[simp] theorem State.respond_inputs (d : Word) : (s.respond d).inputs = s.inputs := rfl
@[simp] theorem State.respond_responses (d : Word) : (s.respond d).responses = s.responses ++ [Response.okay d] := rfl

@[simp] theorem State.raise_B (e : Status) : (s.raise e).B = s.B := rfl
@[simp] theorem State.raise_storage (e : Status) : (s.raise e).storage = s.storage := rfl
@[simp] theorem State.raise_inputs (e : Status) : (s.raise e).inputs = s.inputs := rfl
@[simp] theorem State.raise_responses (e : Status) : (s.raise e).responses = s.responses ++ [Response.error e] := rfl

@[simp] theorem State.take_B : (s.take).B = s.B := rfl
@[simp] theorem State.take_storage : (s.take).storage = s.storage := rfl
@[simp] theorem State.take_inputs : (s.take).inputs = s.inputs.tail := rfl
@[simp] theorem State.take_responses : (s.take).responses = s.responses := rfl

@[simp] theorem State.present_B (w : Word) : (s.present w).B = s.B := rfl
@[simp] theorem State.present_storage (w : Word) : (s.present w).storage = s.storage := rfl
@[simp] theorem State.present_inputs (w : Word) : (s.present w).inputs = .command w :: s.inputs := rfl
@[simp] theorem State.present_responses (w : Word) : (s.present w).responses = s.responses := rfl

@[simp] theorem Storage.variant_set (st : Storage) (i : Nat) (v : Byte) : (st.set i v).variant = st.variant := by
  cases st <;> rfl

@[simp] theorem Storage.variant_empty (v : Variant) : (Storage.empty v).variant = v := by
  cases v <;> rfl

@[simp] theorem State.variant_setReg (i : Nat) (v : Byte) : (s.setReg i v).variant = s.variant := by
  simp [State.variant]

@[simp] theorem State.variant_clear : s.clear.variant = s.variant := by
  simp [State.variant]

@[simp] theorem State.variant_deliver (r : Response) : (s.deliver r).variant = s.variant := rfl

@[simp] theorem State.variant_respond (d : Word) : (s.respond d).variant = s.variant := rfl

@[simp] theorem State.variant_raise (e : Status) : (s.raise e).variant = s.variant := rfl

@[simp] theorem State.variant_take : s.take.variant = s.variant := rfl

@[simp] theorem State.reg_deliver (r : Response) (i : Nat) : (s.deliver r).reg i = s.reg i := rfl

@[simp] theorem State.reg_respond (d : Word) (i : Nat) : (s.respond d).reg i = s.reg i := rfl

@[simp] theorem State.reg_raise (e : Status) (i : Nat) : (s.raise e).reg i = s.reg i := rfl

@[simp] theorem State.reg_take (i : Nat) : s.take.reg i = s.reg i := rfl

@[simp] theorem State.registers_deliver (r : Response) : (s.deliver r).registers = s.registers := rfl

@[simp] theorem State.registers_take : s.take.registers = s.registers := rfl

end Sys2Proof.Machine
end

