-- ==== Sys2Proof/Laws/Ops.lean ====
section
/-! SUPPORT. What each shared operation of `Machine/Ops.lean` and `Machine/Operands.lean` does: where a register lies,
what `packedSet` leaves in each word, the all-zero storage, the operands' ranges, and that storing a register
keeps a storage that fits its precision. -/

namespace Sys2Proof.Machine

/-! ## Where a register lies -/

theorem bitOffset_eq (i : Nat) : bitOffset i = 6 * i := rfl

theorem bitOffset_split (i : Nat) : 64 * wordIndex i + shift i = 6 * i := by
  simp only [wordIndex, shift, bitOffset_eq]; omega

theorem shift_lt (i : Nat) : shift i < 64 := by
  simp only [shift]; omega

theorem straddles_iff (i : Nat) : straddles i = true ↔ 58 < shift i := by
  simp only [straddles, decide_eq_true_eq]; omega

/-- The only straddling offsets are 60 and 62, since every offset is even (R54). -/
theorem shift_of_straddles (i : Nat) (h : straddles i = true) : shift i = 60 ∨ shift i = 62 := by
  have := (straddles_iff i).mp h
  simp only [shift, bitOffset_eq] at *; omega

theorem wordIndex_lt (B : Precision) (i : Nat) (h : i < B.m) : wordIndex i < B.W := by
  simp only [wordIndex, bitOffset_eq, Precision.W]; omega

/-- A straddling register's second word exists (R54). -/
theorem wordIndex_succ_lt (B : Precision) (i : Nat) (h : i < B.m) (hs : straddles i = true) :
    wordIndex i + 1 < B.W := by
  have h1 := (straddles_iff i).mp hs
  have h2 := bitOffset_split i
  simp only [Precision.W]; omega

theorem getLsbD_mask (k j : Nat) : (mask k).getLsbD j = (decide (j < k) && decide (j < 64)) := by
  simp [mask, BitVec.getLsbD_ofNat, Nat.testBit_two_pow_sub_one, Bool.and_comm]

/-! ## What the packed `set` leaves in each word -/

/-- Every word after `packedSet` (R112): the first word, the next word of a straddling register, the others
untouched. -/
theorem read_packedSet (words : Memory 64) (i : Nat) (x : Word) (a : Nat) :
    Memory.read (packedSet words i x) a =
      if straddles i = true then
        if a = wordIndex i + 1 then
          (words.read (wordIndex i + 1) &&& ~~~ mask (highBits i)) ||| (x >>> lowBits i)
        else if a = wordIndex i then
          (words.read (wordIndex i) &&& mask (shift i)) ||| ((x &&& mask (lowBits i)) <<< shift i)
        else words.read a
      else if a = wordIndex i then
        (words.read (wordIndex i) &&& ~~~ (0x3F#64 <<< shift i)) ||| (x <<< shift i)
      else words.read a := by
  unfold packedSet
  split <;> simp only [Memory.read_write]

/-- `packedSet` keeps the canonical form. -/
theorem wf_packedSet (words : Memory 64) (i : Nat) (x : Word) (h : words.wf = true) :
    (packedSet words i x).wf = true := by
  unfold packedSet
  split
  · exact Memory.wf_write _ _ _ (Memory.wf_write _ _ _ h)
  · exact Memory.wf_write _ _ _ h

/-! ## The all-zero storage -/

@[simp] theorem Storage.bit_empty (v : Variant) (p : Nat) : (Storage.empty v).bit p = false := by
  cases v <;> simp [Storage.empty, Storage.bit]

@[simp] theorem Storage.get_empty (v : Variant) (i : Nat) : (Storage.empty v).get i = 0 := by
  cases v <;> simp [Storage.empty, Storage.get, packedGet]

@[simp] theorem Storage.wf_empty (B : Precision) (v : Variant) : (Storage.empty v).wf B = true := by
  cases v <;> rfl

/-! ## Operands -/

theorem Precision.m_pos (B : Precision) : 0 < B.m := Nat.two_pow_pos _

theorem Precision.m_mul (B : Precision) : B.m * 2 ^ B.maxBits = 2 ^ 32 := by
  rw [Precision.m, Precision.maxBits, ← Nat.pow_add]
  congr 1; omega

theorem indexInRange_iff (B : Precision) (i : U32) : indexInRange B i = true ↔ i.toNat < B.m := by
  simp [indexInRange]

theorem bucket_eq (B : Precision) (d : U32) : bucket B d = d.toNat / 2 ^ B.maxBits := by
  simp [bucket, Nat.shiftRight_eq_div_pow]

/-- A bucket index is always in range, so `ADD` cannot raise `INDEX_RANGE` (R130, R131). -/
theorem bucket_lt (B : Precision) (d : U32) : bucket B d < B.m := by
  rw [bucket_eq, Nat.div_lt_iff_lt_mul (Nat.two_pow_pos _), Precision.m_mul B]
  exact d.isLt

/-- The count of `lzFrom` goes on from `k` by at most `n`. -/
theorem lzFrom_bounds (tail : U32) (n k : Nat) : k ≤ lzFrom tail n k ∧ lzFrom tail n k ≤ k + n := by
  induction n generalizing k with
  | zero => simp [lzFrom]
  | succ n ih =>
    have := ih (k + 1)
    unfold lzFrom
    split <;> omega

end Sys2Proof.Machine
end

