-- ==== Sys2Proof/Laws/Exec.lean ====
section
/-! SUPPORT. What `exec` and `step` can do, said once: a command answers a next state that differs in the storage and
in one more response only, and the storage is the old one, the old one with one register stored, or empty. -/

namespace Sys2Proof.Machine

/-- The inversion of `exec`. -/
theorem exec_cases (i : Instr) (s : State) :
    ∃ st r, exec i s = .next { s with storage := st, responses := s.responses ++ [r] } ∧
      (st = s.storage ∨ (∃ j v, j < s.B.m ∧ st = s.storage.set j v) ∨ st = Storage.empty s.variant) := by
  cases i with
  | get i =>
    simp only [exec, execGet]
    split
    · exact ⟨s.storage, _, rfl, .inl rfl⟩
    · exact ⟨s.storage, _, rfl, .inl rfl⟩
  | set i v =>
    simp only [exec, execSet]
    split
    · exact ⟨_, _, rfl, .inr (.inl ⟨_, v, (indexInRange_iff _ _).mp ‹_›, rfl⟩)⟩
    · exact ⟨s.storage, _, rfl, .inl rfl⟩
  | add d => exact ⟨_, _, rfl, .inr (.inl ⟨_, _, bucket_lt s.B d, rfl⟩)⟩
  | estimate => exact ⟨s.storage, _, rfl, .inl rfl⟩
  | reset => exact ⟨_, _, rfl, .inr (.inr rfl)⟩
  | rdb => exact ⟨s.storage, _, rfl, .inl rfl⟩
  | rdm => exact ⟨s.storage, _, rfl, .inl rfl⟩
  | rdfoot => exact ⟨s.storage, _, rfl, .inl rfl⟩

/-- The step on a command word takes it and executes it. -/
theorem step_command (s : State) (c : Word) (rest : List HostInput) (h : s.inputs = .command c :: rest) :
    step s = execWord c s.take := by
  simp only [step, takeInput, h, handle]

/-- The step on a placed opcode-table word executes that word on the state as it was. -/
theorem step_withFetchWord (s : State) (nbits w : Nat) :
    step (s.withFetchWord nbits w) = execWord (tableWord nbits w) s := by
  rw [step_command _ (tableWord nbits w) s.inputs rfl]
  rfl

/-- The step on a power-on takes it and powers on. -/
theorem step_powerOn (s : State) (cfgB : BitVec 6) (v : Variant) (rest : List HostInput)
    (h : s.inputs = .powerOn cfgB v :: rest) : step s = s.take.powerOn cfgB v := by
  simp only [step, takeInput, h, handle]

end Sys2Proof.Machine
end

