-- ==== Sys2Proof/Laws/PerInstr.lean ====
section
/-! SUPPORT. Facts about every command as syntax, one lemma per constructor of `Instr`. -/

namespace Sys2Proof.Laws.EncodedFields

/-- The four fields of the command's encoding (R81, R87): its opcode, the reserved field 0, its operands, and 0 in
every operand field it does not use. -/
def Statement (i : Instr) : Prop :=
  opField (encode i) = i.op.code ∧ rsvField (encode i) = 0 ∧
    vField (encode i) = i.vOperand ∧ aField (encode i) = i.aOperand

theorem get (i : U32) : Statement (.get i) := by simp [Statement, encode]

theorem set (i : U32) (v : Byte) : Statement (.set i v) := by simp [Statement, encode]

theorem add (d : U32) : Statement (.add d) := by simp [Statement, encode]

theorem estimate : Statement .estimate := by simp [Statement, encode]

theorem reset : Statement .reset := by simp [Statement, encode]

theorem rdb : Statement .rdb := by simp [Statement, encode]

theorem rdm : Statement .rdm := by simp [Statement, encode]

theorem rdfoot : Statement .rdfoot := by simp [Statement, encode]

end Sys2Proof.Laws.EncodedFields
end

