-- ==== Sys2Proof/Tests/Slice0.lean ====
section
/-! SUPPORT. Tests: expected values from spec/95_test_vectors.md and the examples of the rules, never from the model.
Then, for each statement with hypotheses, a concrete input that meets them all. -/

namespace Sys2Proof.Tests

open Sys2Proof.Machine

/-! ## Helpers -/

/-- A block with the given precision and storage, nothing sent and nothing answered. -/
def block (B : Precision) (st : Storage) : State := { B := B, storage := st, inputs := [], responses := [] }

/-- The next state, if the outcome is one. -/
def nextState (o : Host.Outcome State Fault Refusal) : Option State :=
  match o with
  | .next s => some s
  | .fault _ => none
  | .refused _ => none

/-- The storage after a command. -/
def storageAfter (i : Instr) (s : State) : Option Storage := (nextState (exec i s)).map (·.storage)

/-- The responses after a command. -/
def answer (i : Instr) (s : State) : Option (List Response) := (nextState (exec i s)).map (·.responses)

/-! ## Well-formedness: each check refuses an ill-formed term -/

theorem test_wf_get_index : Instr.wellFormed 4 (.get 15) = true ∧ Instr.wellFormed 4 (.get 16) = false := by decide

theorem test_wf_set_index : Instr.wellFormed 0 (.set 0 1) = true ∧ Instr.wellFormed 0 (.set 1 1) = false := by decide

theorem test_wf_strap : strapWellFormed 32 = true ∧ strapWellFormed 33 = false := by decide

theorem test_wf_memory_order : Memory.wf [(2, 1#8), (1, 1#8)] = false := by decide

theorem test_wf_memory_zero : Memory.wf [(2, 0#8)] = false := by decide

theorem test_wf_storage_words : Storage.wf 4 (.packed [(2, 1)]) = false := by decide

theorem test_wf_storage_padding :
    Storage.wf 4 (.packed [(1, 0x00000000FFFFFFFF)]) = true ∧
    Storage.wf 4 (.packed [(1, 0x0000000100000000)]) = false := by decide

theorem test_wf_storage_cells :
    Storage.wf 4 (.unpacked [(15, 1)]) = true ∧ Storage.wf 4 (.unpacked [(16, 1)]) = false := by decide

/-! ## Decoding: words written out from R84 and section 2.5 -/

theorem test_decode_get :
    decode 0b0001000000000000000000000000000000000000000000000000000000000011 = .ok (.get 3) := by rfl

theorem test_decode_set :
    decode 0b0010000000000000000000000010101000000000000000000000000000001010 = .ok (.set 10 0x2A) := by rfl

theorem test_decode_add :
    decode 0b0011000000000000000000000000000011011110101011011011111011101111 =
      .ok (.add 0xDEADBEEF) := by rfl

theorem test_decode_estimate :
    decode 0b0100000000000000000000000000000000000000000000000000000000000000 = .ok .estimate := by rfl

theorem test_decode_reset :
    decode 0b0101000000000000000000000000000000000000000000000000000000000000 = .ok .reset := by rfl

theorem test_decode_rdb :
    decode 0b0110000000000000000000000000000000000000000000000000000000000000 = .ok .rdb := by rfl

theorem test_decode_rdm :
    decode 0b0111000000000000000000000000000000000000000000000000000000000000 = .ok .rdm := by rfl

theorem test_decode_rdfoot :
    decode 0b1000000000000000000000000000000000000000000000000000000000000000 = .ok .rdfoot := by rfl

theorem test_decode_reserved : decode 0x2800000000000000 = .error .reservedField := by rfl

theorem test_decode_unused : decode 0x3000000100000000 = .error .unusedField := by rfl

theorem test_decode_unassigned :
    decode 0x0000000000000000 = .error .unassignedOpcode ∧
    decode 0x9000000000000000 = .error .unassignedOpcode := ⟨by rfl, by rfl⟩

theorem test_decodeTableWord : decodeTableWord 64 0x200000FF00000000 = some (.set 0 0xFF) := by decide

/-! ## GET and SET: section 2.1 -/

theorem test_set_straddle_60 : storageAfter (.set 10 0x31) (block 5 (.packed [])) =
    some (.packed [(0, 0x1000000000000000), (1, 0x0000000000000003)]) := by decide

theorem test_set_straddle_62_overwrite :
    storageAfter (.set 21 0x00)
      (block 5 (.packed [(0, 0x5FC0000000000000), (1, 0x7F000000000000FD), (2, 0x00000000000003FB)])) =
    some (.packed [(0, 0x5FC0000000000000), (1, 0x3F000000000000FD), (2, 0x00000000000003F0)]) := by decide

theorem test_get_straddle : answer (.get 10) (block 5 (.packed [(0, 0xAFC0000000000000), (1, 0xFE)])) =
    some [⟨.ok, 0x2A⟩] := by decide

theorem test_get_out_of_range : answer (.get 16) (block 4 (.packed [])) = some [⟨.indexRange, 0⟩] := by decide

theorem test_set_masks_by_variant :
    storageAfter (.set 0 100) (block 4 (.packed [])) = some (.packed [(0, 36)]) ∧
    storageAfter (.set 0 100) (block 4 (.unpacked [])) = some (.unpacked [(0, 100)]) := by decide

/-! ## ADD: section 2.2 -/

theorem test_add_straddling_bucket :
    storageAfter (.add 0xA0000001) (block 4 (.packed [(0, 0x4000000000000000), (1, 1)])) =
    some (.packed [(0, 0xC000000000000000), (1, 1)]) := by decide

theorem test_add_lower_rank :
    storageAfter (.add 0xA8000000) (block 4 (.packed [(0, 0x4000000000000000), (1, 1)])) =
    some (.packed [(0, 0x4000000000000000), (1, 1)]) := by decide

/-- Bucket, tail and rank at the ends of the range of `B`. -/
theorem test_add_stages :
    (bucket 0 0x80000000, tailOf 0 0x80000000, rankOfDigest 0 0x80000000) = (0, 0x80000000, 1) ∧
    rankOfDigest 0 0 = 33 ∧ rankOfDigest 4 0xF0000000 = 29 ∧ rankOfDigest 4 0xF0000001 = 28 ∧
    (bucket 10 0xDEADBEEF, tailOf 10 0xDEADBEEF, rankOfDigest 10 0xDEADBEEF) = (890, 0xB6FBBC00, 1) ∧
    (bucket 32 0x12345678, tailOf 32 0x12345678, rankOfDigest 32 0x12345678) = (305419896, 0, 1) := by decide

/-! ## ESTIMATE: section 2.3 (the exact vectors, the branches, and `RefEval`) -/

theorem test_estimate_empty : answer .estimate (block 4 (.unpacked [])) = some [⟨.ok, 0⟩] := by decide

theorem test_estimate_branches :
    estBranch 4 (List.replicate 8 1 ++ List.replicate 8 0) = .lc ∧
    estBranch 4 (List.replicate 16 1) = .smallRaw ∧
    estBranch 4 (List.replicate 15 4 ++ [0]) = .raw ∧
    estBranch 4 (List.replicate 16 28) = .large ∧
    estBranch 4 (List.replicate 16 29) = .clamp := by decide +kernel

/-- The branches of `RefEval` that take no logarithm, and the one of program P1 with `ln(4)` given. -/
theorem test_refEval :
    bits64 (refEvalWith (fun _ => 0) 4 (List.replicate 16 1)) = 0x403589374BC6A7F0 ∧
    bits64 (refEvalWith (fun _ => 0) 4 (List.replicate 15 4 ++ [0])) = 0x40563B0FCA176308 ∧
    bits64 (refEvalWith (fun _ => 0) 4 (List.replicate 16 255)) = 0x41F0000000000000 ∧
    bits64 (refEvalWith (fun x => if x = 4 then 0x162E42FEFA39EF / 2 ^ 52 else 0) 2 [31, 31, 31, 0]) =
      0x40162E42FEFA39EF ∧
    bits64 (rne (2 ^ 32 / 30)) = 0x41A1111111111111 := by decide +kernel

/-! ## RESET and the accessors: section 2.4 -/

theorem test_reset :
    storageAfter .reset (block 4 (.packed [(0, 0xC000000000740000), (1, 1)])) = some (.packed []) := by decide

theorem test_rdb : answer .rdb (block 10 (.packed [])) = some [⟨.ok, 0xA⟩] := by decide

theorem test_rdm_33_bits : answer .rdm (block 32 (.packed [])) = some [⟨.ok, 0x0000000100000000⟩] := by decide

theorem test_rdfoot :
    answer .rdfoot (block 32 (.packed [])) = some [⟨.ok, 3221225472⟩] ∧
    answer .rdfoot (block 10 (.unpacked [])) = some [⟨.ok, 1024⟩] := by decide

/-! ## The port: R80, R85, R230, R92 -/

theorem test_status_codes :
    Status.code .ok = 0 ∧ Status.code .illegalCommand = 1 ∧ Status.code .indexRange = 2 := by decide

theorem test_step_from_reset : nextState (step (State.reset.withFetchWord 64 0x30000000A0000100)) =
    some { B := 4, storage := .packed [(0, 0x4000000000000000), (1, 1)], inputs := [],
           responses := [⟨.ok, 0⟩] } := by decide

theorem test_step_decode_error_wins : nextState (step (State.reset.withFetchWord 64 0x1000010000000010)) =
    some { State.reset with responses := [⟨.illegalCommand, 0⟩] } := by decide

theorem test_step_power_on :
    nextState (step { State.reset with inputs := [.powerOn 10 .unpacked] }) = some (block 10 (.unpacked [])) := by
  decide

theorem test_fill : (fill 1 63).map encode = [0x2000003F00000000, 0x2000003F00000001] := by decide

theorem test_assembly : assembly (.set 10 0x2A) = "SET 10, 42" := by decide

/-! ## Witnesses: inputs that meet every hypothesis of a statement -/

/-- A packed block at `B = 4` with some registers set, that fits its precision. -/
def used : State := block 4 (.packed [(0, 0xC000000000740000), (1, 1)])

/-- The same registers in an unpacked block. -/
def usedUnpacked : State := block 4 (.unpacked [(3, 29), (10, 28)])

theorem witness_EncodeDecodeRoundTrip : decode 0x1000000000000003 = .ok (.get 3) := by rfl

theorem witness_OpcodeRowsDoNotOverlap :
    Op.selectedBy .set 0x200000FF00000001 = true ∧ Op.selectedBy .set 0x200000FF00000001 = true := by decide

theorem witness_StepRunsDecodedCommand :
    ({ used with inputs := [.command 0x1000000000000003] } : State).inputs = .command 0x1000000000000003 :: [] ∧
    decode 0x1000000000000003 = .ok (.get 3) := ⟨rfl, by rfl⟩

theorem witness_IllegalWordsAreAnswered :
    ({ used with inputs := [.command 0] } : State).inputs = .command 0 :: [] ∧ ∀ i, decode 0 ≠ .ok i :=
  ⟨rfl, fun i h => by cases (show decode 0 = .error .unassignedOpcode by rfl).symm.trans h⟩

/-- Each clause of the illegal fields at its boundary: opcodes 0, 9 and 15, `rsv` bits 40 and 59, `v` of `GET`, `a` of
`ESTIMATE` and of `RDFOOT`; and the legal words next to them. -/
theorem witness_IllegalWordsAreAnswered_clauses :
    [0x0000000000000000, 0x9000000000000000, 0xF000000000000000, 0x2000010000000000, 0x2800000000000000,
      0x1000000100000000, 0x4000000000000001, 0x8000000000000001].map (decodeTableWord 64) =
      List.replicate 8 none ∧
    [0x1000000000000000, 0x8000000000000000, 0x200000FF00000000, 0x30000000FFFFFFFF].map (decodeTableWord 64) =
      [some (.get 0), some .rdfoot, some (.set 0 0xFF), some (.add 0xFFFFFFFF)] := ⟨by rfl, by rfl⟩

theorem witness_StepWithoutInputChangesNothing : used.inputs = [] := rfl

theorem witness_PowerOnSamplesStraps :
    ({ used with inputs := [.powerOn 32 .packed] } : State).inputs = .powerOn 32 .packed :: [] ∧
    (0 : BitVec 6).toNat ≤ 32 ∧ (32 : BitVec 6).toNat ≤ 32 ∧ 32 < (33 : BitVec 6).toNat ∧
    32 < (63 : BitVec 6).toNat := by decide

theorem witness_EveryCommandAnsweredOnce :
    ({ used with inputs := [.command 0x9000000000000000] } : State).inputs =
      .command 0x9000000000000000 :: [] := rfl

theorem witness_ValidCommandsAnswerOk :
    Instr.wellFormed used.B (.get 15) = true ∧ Instr.wellFormed used.B (.add 0xFFFFFFFF) = true := by decide

theorem witness_IndexOutOfRangeIsAnswered : used.B.m ≤ (16 : U32).toNat := by decide

theorem witness_OnlyIndexErrorsRaiseIndexRange :
    ∃ t, exec (.get 16) used = .next t ∧ t.responses = used.responses ++ [⟨.indexRange, 0⟩] := ⟨_, rfl, rfl⟩

theorem witness_SafeRunAnswersEveryCommand :
    State.Safe { used with inputs := [.command 0, .powerOn 5 .unpacked, .command 0x4000000000000000] } := by
  exact ⟨by decide, by decide⟩

theorem witness_OnlyPowerOnChangesConfiguration :
    step { used with inputs := [.powerOn 10 .unpacked] } = .next (block 10 (.unpacked [])) ∧
    (block 10 (.unpacked [])).B ≠ used.B := ⟨by rfl, by decide⟩

theorem witness_StepKeepsStorageFit :
    State.wf { used with inputs := [.command 0x2000003F0000000F] } = true ∧
    ∃ t, step { used with inputs := [.command 0x2000003F0000000F] } = .next t := ⟨by decide, _, rfl⟩

theorem witness_PaddingIsNeverRead :
    (block 4 (.packed [])).B = (block 4 (.packed [(1, 0xFFFFFFFF00000000)])).B ∧
    (∀ p, p < 6 * Precision.m 4 →
      (Storage.packed []).bit p = (Storage.packed [(1, 0xFFFFFFFF00000000)]).bit p) := by decide

/-- `used` or `usedUnpacked` as two `SET`s on an empty block leave it: other responses, the same registers. -/
def answeredTwice (s : State) : State := { s with responses := [⟨.ok, 0⟩, ⟨.ok, 0⟩] }

/-- A pair of one variant, each block reached on its own, that meets all five hypotheses together. -/
theorem witness_StorageDeterminedByRegisters :
    nextState (execAll [.set 10 28, .set 3 29] (block 4 (.packed []))) = some (answeredTwice used) ∧
    used.wf = true ∧ (answeredTwice used).wf = true ∧ used.B = (answeredTwice used).B ∧
    used.variant = (answeredTwice used).variant ∧
    (∀ i, i < used.B.m → used.reg i = (answeredTwice used).reg i) := by decide

theorem witness_StorageDeterminedByRegisters_unpacked :
    nextState (execAll [.set 10 28, .set 3 29] (block 4 (.unpacked []))) = some (answeredTwice usedUnpacked) ∧
    usedUnpacked.wf = true ∧ (answeredTwice usedUnpacked).wf = true ∧
    usedUnpacked.B = (answeredTwice usedUnpacked).B ∧
    usedUnpacked.variant = (answeredTwice usedUnpacked).variant ∧
    (∀ i, i < usedUnpacked.B.m → usedUnpacked.reg i = (answeredTwice usedUnpacked).reg i) := by decide

theorem witness_StraddlingIndices : 10 < Precision.m 4 ∧ straddles 10 = true ∧ straddles 21 = true := by decide

theorem witness_GetAnswersRegister : (0 : U32).toNat < used.B.m ∧ (15 : U32).toNat < used.B.m := by decide

theorem witness_SetWritesOnlyItsField : (10 : U32).toNat < used.B.m ∧ (15 : U32).toNat < usedUnpacked.B.m := by decide

theorem witness_SetThenGetRoundTrip : (10 : U32).toNat < used.B.m ∧ (15 : U32).toNat < usedUnpacked.B.m := by decide

theorem witness_SetLeavesOtherRegisters : (10 : U32).toNat < used.B.m ∧ 11 ≠ (10 : U32).toNat := by decide

theorem witness_SetsToDifferentIndicesCommute :
    used.wf = true ∧ (10 : U32).toNat < used.B.m ∧ (11 : U32).toNat < used.B.m ∧ (10 : U32) ≠ 11 := by decide

theorem witness_InjectLoadsEveryRegister :
    (List.replicate 16 (100 : Byte)).length = used.B.m := by decide

theorem witness_RankRange : 1 ≤ 1 ∧ 1 ≤ Precision.maxBits 31 ∧ 1 ≤ 28 ∧ 28 ≤ Precision.maxBits 4 := by decide

theorem witness_AddMaxUpdatesOneRegister_outside :
    0 < used.variant.bitsPerRegister * bucket used.B 0xA0000100 ∧
    used.variant.bitsPerRegister * bucket used.B 0xA0000100 + used.variant.bitsPerRegister ≤ 127 := by decide

theorem witness_AddIsIdempotent : used.wf = true := by decide

theorem witness_AddsFoldToMaximumInAnyOrder :
    used.wf = true ∧ [(0 : U32), 0xA0000100].Perm [0xA0000100, 0] := ⟨by decide, List.Perm.swap _ _ _⟩

theorem witness_AddIsMonotone : 0 < used.B.m ∧ 0 ≠ bucket used.B 0xA0000100 := by decide

theorem witness_RanksStayBounded :
    RanksBounded used ∧ (∀ j v, Instr.add 0 ≠ .set j v) ∧ ∃ t, exec (.add 0) used = .next t :=
  ⟨by unfold RanksBounded; decide, fun _ _ h => (by cases h), _, rfl⟩

theorem witness_OnlySetAndResetLowerARegister :
    3 < used.B.m ∧ ∃ t, exec (.set 3 0) used = .next t ∧ (t.reg 3).toNat < (used.reg 3).toNat :=
  ⟨by decide, _, rfl, by decide⟩

theorem witness_VariantsAgree :
    SameView used usedUnpacked ∧ used.variant = .packed ∧ usedUnpacked.variant = .unpacked ∧
    (∀ j v, Instr.set j v ∈ [Instr.set 0 63, .add 0, .rdfoot, .estimate] → v.toNat ≤ 63) := by
  refine ⟨⟨rfl, by decide⟩, rfl, rfl, fun j v h => ?_⟩
  simp at h
  rw [h.2]; decide

theorem witness_EstimateDependsOnRegistersOnly : SameView used usedUnpacked := ⟨rfl, by decide⟩

theorem witness_EmptySketchEstimatesZero : EmptySketch (block 4 (.unpacked [])) := by
  unfold EmptySketch; decide

theorem witness_EstimateAdmitsEveryEvaluation : Admissible (fun _ _ => 0) :=
  ⟨fun _ _ _ => rfl, fun _ _ => by decide⟩

theorem witness_RefEvalSumIsExact :
    (1 : Precision).val ≤ 20 ∧ ([33, 0] : List Byte).length = Precision.m 1 ∧
    (∀ x ∈ ([33, 0] : List Byte), x.toNat ≤ 33) ∧ ([33, 0] : List Byte).Perm [0, 33] :=
  ⟨by decide, by decide, by decide, List.Perm.swap _ _ _⟩

theorem witness_RawEstimateBounds :
    1 ≤ 1 ∧ ([63] : List Byte).length = Precision.m 0 ∧
    ∀ x ∈ ([63] : List Byte), x.toNat ≤ Variant.packed.registerMax := by decide

/-- The `B = 26` row of section 2.3: a quarter of the registers 1, the others 2. -/
theorem witness_BranchOrderMattersFromPrecision26 :
    smallRange 26 (List.replicate (2 ^ 24) 1 ++ List.replicate (3 * 2 ^ 24) 2) ∧
    largeRange 26 (List.replicate (2 ^ 24) 1 ++ List.replicate (3 * 2 ^ 24) 2) := by
  have hs : registerSum (List.replicate (2 ^ 24) 1 ++ List.replicate (3 * 2 ^ 24) 2) = 20971520 := by
    rw [registerSum, List.map_append, List.sum_append, List.map_replicate, List.map_replicate,
      List.sum_replicate, List.sum_replicate, show BitVec.toNat (1 : Byte) = 1 by decide,
      show BitVec.toNat (2 : Byte) = 2 by decide]
    norm_num
  have hm : ((Precision.m 26 : Nat) : ℚ) = 67108864 := by
    rw [show Precision.m 26 = 67108864 by decide]; norm_num
  have ha : alpha (Precision.m 26) = 7213 / 10000 / (1 + 1079 / 1000 / 67108864) := by
    rw [alpha, hm]
    simp [show Precision.m 26 = 67108864 by decide]
  constructor
  · simp only [smallRange, rawE, hs, ha, hm]; norm_num
  · simp only [largeRange, rawE, hs, ha, hm]; norm_num

theorem witness_ExactEstimateZeroOnlyWhenEmpty : ([0] : List Byte).length = Precision.m 0 := by decide

theorem witness_ExactEstimateIgnoresOrder : ([1, 0] : List Byte).Perm [0, 1] := List.Perm.swap _ _ _

theorem witness_AccessorsAnswerParameters : used.variant = .packed ∧ usedUnpacked.variant = .unpacked := by decide

theorem witness_FootprintIsTheWordsHeld : 5 ≤ (5 : Precision).val := by decide

theorem witness_ReadCommandsChangeNothing :
    (∀ j v, Instr.rdb ≠ .set j v) ∧ (∀ d, Instr.rdb ≠ .add d) ∧ Instr.rdb ≠ .reset ∧
    ∃ t, exec .rdb used = .next t :=
  ⟨fun _ _ h => (by cases h), fun _ h => (by cases h), (fun h => by cases h), _, rfl⟩

end Sys2Proof.Tests
end

section
/-! PROOFS. The statements of spec/00_scope.md: the answer to a command word, what a power-on alone can change, and
the footprint of the packed storage. -/

namespace Sys2Proof.Machine

/-! ## How a command ends -/

/-- The two ends of a command, by R200's check: a valid one responds `OK` over a storage of the same variant, a
`GET` or `SET` with its index out of range raises `INDEX_RANGE` on the state as it was (R203). -/
theorem exec_responds_or_raises (i : Instr) (s : State) :
    (i.wellFormed s.B = true ∧ ∃ st d, st.variant = s.variant ∧
      exec i s = .next (State.respond { s with storage := st } d)) ∨
    (i.wellFormed s.B ≠ true ∧ exec i s = .next (s.raise .indexRange)) := by
  cases i with
  | get j =>
    by_cases hj : indexInRange s.B j = true
    · exact .inl ⟨hj, s.storage, _, rfl, if_pos hj⟩
    · exact .inr ⟨hj, if_neg hj⟩
  | set j v =>
    by_cases hj : indexInRange s.B j = true
    · exact .inl ⟨hj, _, _, Storage.variant_set _ _ _, if_pos hj⟩
    · exact .inr ⟨hj, if_neg hj⟩
  | add d => exact .inl ⟨rfl, _, _, Storage.variant_set _ _ _, rfl⟩
  | estimate => exact .inl ⟨rfl, s.storage, _, rfl, rfl⟩
  | reset => exact .inl ⟨rfl, _, _, Storage.variant_empty _, rfl⟩
  | rdb => exact .inl ⟨rfl, s.storage, _, rfl, rfl⟩
  | rdm => exact .inl ⟨rfl, s.storage, _, rfl, rfl⟩
  | rdfoot => exact .inl ⟨rfl, s.storage, _, rfl, rfl⟩

theorem execWord_of_decode_ok {c : Word} {i : Instr} (h : decode c = .ok i) (s : State) :
    execWord c s = exec i s := by
  simp only [execWord, h]

theorem execWord_of_decode_error {c : Word} {e : DecodeError} (h : decode c = .error e) (s : State) :
    execWord c s = .next (s.raise .illegalCommand) := by
  simp only [execWord, h]

/-- A command word, legal or not, ends with `OK` over a storage of the same variant, or with an error raised on the
state as it was (R201). -/
theorem execWord_responds_or_raises (c : Word) (s : State) :
    (∃ st d, st.variant = s.variant ∧ execWord c s = .next (State.respond { s with storage := st } d)) ∨
    (∃ e, execWord c s = .next (s.raise e)) := by
  cases hc : decode c with
  | ok i =>
    rw [execWord_of_decode_ok hc]
    obtain ⟨-, hrespond⟩ | ⟨-, hraise⟩ := exec_responds_or_raises i s
    · exact .inl hrespond
    · exact .inr ⟨_, hraise⟩
  | error e => exact .inr ⟨_, execWord_of_decode_error hc s⟩

/-- Settles O9: an error is raised on the state as it was, so its clause is about `raise` alone. -/
theorem everyCommandAnsweredOnce : Obligations.EveryCommandAnsweredOnce := by
  intro s c rest hin
  have htail : s.take.inputs = rest := by simp [hin]
  rw [step_command s c rest hin]
  obtain ⟨st, d, hv, hexec⟩ | ⟨e, hexec⟩ := execWord_responds_or_raises c s.take
  · exact ⟨_, .okay d, hexec, htail, rfl, rfl, hv, fun hne => absurd rfl hne⟩
  · exact ⟨_, .error e, hexec, htail, rfl, rfl, rfl, fun _ => ⟨rfl, rfl⟩⟩

/-! ## The configuration -/

theorem step_of_no_input (s : State) (h : s.inputs = []) : step s = .next s := by
  simp only [step, takeInput, h]

/-- Settles O14, by the kinds of input: none changes nothing, and a command word keeps `B` and the variant (O9). -/
theorem onlyPowerOnChangesConfiguration : Obligations.OnlyPowerOnChangesConfiguration := by
  intro s t hstep hchange
  match hin : s.inputs with
  | [] =>
    obtain rfl : s = t := by simpa [step_of_no_input s hin] using hstep
    simp at hchange
  | .command c :: rest =>
    obtain ⟨t', r, hstep', -, -, hB, hv, -⟩ := everyCommandAnsweredOnce s c rest hin
    obtain rfl : t' = t := by simpa [hstep'] using hstep
    simp [hB, hv] at hchange
  | .powerOn cfgB v :: rest => exact ⟨cfgB, v, rest, rfl⟩

/-! ## The footprint -/

theorem Precision.m_le (B : Precision) : B.m ≤ 2 ^ 32 :=
  Nat.pow_le_pow_right (by decide) (Nat.le_of_lt_succ B.isLt)

/-- From `B = 5` on the registers come in groups of 32, which fill 3 words each (R7). -/
theorem Precision.m_eq_of_five_le (B : Precision) (h : 5 ≤ B.val) : B.m = 32 * 2 ^ (B.val - 5) := by
  rw [Precision.m, show 32 = 2 ^ 5 from rfl, ← Nat.pow_add, Nat.add_sub_cancel' h]

/-- Settles O52: arithmetic on `m`, with `0 < m` for the tightness of `W` and `m ≤ 2^32` for the 64-bit data. -/
theorem footprintIsTheWordsHeld : Obligations.FootprintIsTheWordsHeld := by
  intro B
  have hpos := Precision.m_pos B
  have hle := Precision.m_le B
  have hW : B.W = (B.m * 6 + 63) / 64 := rfl
  simp only [footprint]
  refine ⟨by omega, by omega, by omega, fun h5 => ?_, by omega, by omega⟩
  have hm := Precision.m_eq_of_five_le B h5
  omega

end Sys2Proof.Machine
end

section
/-! PROOFS. The statements of spec/10_state.md: the bits of the storage and the register view through a store, the
storage that fits its precision, what each command keeps, and the two variants side by side. -/

namespace Sys2Proof.Machine

/-! ## The bits of the storage -/

@[simp] theorem getLsbD_maskValue (var : Variant) (v : Byte) (k : Nat) :
    (maskValue var v).getLsbD k = (decide (k < var.bitsPerRegister) && v.getLsbD k) := by
  rw [maskValue, BitVec.getLsbD_and, Variant.registerMax, BitVec.getLsbD_ofNat, Nat.testBit_two_pow_sub_one]
  by_cases hk : k < 8
  · simp [hk, Bool.and_comm]
  · simp [BitVec.getLsbD_of_ge v k (Nat.le_of_not_lt hk)]

theorem Storage.bit_packed_word (words : Memory 64) (a b : Nat) (hb : b < 64) :
    (Storage.packed words).bit (64 * a + b) = (words.read a).getLsbD b := by
  rw [Storage.bit, show (64 * a + b) / 64 = a by omega, show (64 * a + b) % 64 = b by omega]

/-- R111 read bit by bit: a bit of a straddling register comes from the first word up to its bit 63, from the next
word after it. -/
theorem getLsbD_packedGet (words : Memory 64) (i k : Nat) :
    (packedGet words i).getLsbD k = (decide (k < 6) && (Storage.packed words).bit (6 * i + k)) := by
  have hsplit := bitOffset_split i
  have hlt := shift_lt i
  have hmask : 0x3F#64 = mask 6 := rfl
  by_cases hs : straddles i = true
  · have hlate := (straddles_iff i).mp hs
    simp only [packedGet, if_pos hs, BitVec.getLsbD_or, BitVec.getLsbD_ushiftRight, BitVec.getLsbD_shiftLeft,
      BitVec.getLsbD_and, getLsbD_mask, highBits, lowBits]
    by_cases hk : shift i + k < 64
    · rw [show 6 * i + k = 64 * wordIndex i + (shift i + k) by omega, Storage.bit_packed_word _ _ _ hk]
      simp [show k < 64 - shift i by omega, show k < 6 by omega]
    · rw [show 6 * i + k = 64 * (wordIndex i + 1) + (k - (64 - shift i)) by omega]
      by_cases hk6 : k < 6
      · rw [Storage.bit_packed_word _ _ _ (by omega), BitVec.getLsbD_of_ge _ (shift i + k) (by omega)]
        grind
      · rw [BitVec.getLsbD_of_ge _ (shift i + k) (by omega)]
        grind
  · have hearly : ¬ 58 < shift i := fun h => hs ((straddles_iff i).mpr h)
    simp only [packedGet, if_neg hs, hmask, BitVec.getLsbD_and, BitVec.getLsbD_ushiftRight, getLsbD_mask]
    by_cases hk : k < 6
    · rw [show 6 * i + k = 64 * wordIndex i + (shift i + k) by omega, Storage.bit_packed_word _ _ _ (by omega)]
      simp [hk, show k < 64 by omega]
    · simp [hk]

theorem getLsbD_packedValue (v : Byte) (k : Nat) :
    ((maskValue .packed v).setWidth 64).getLsbD k = (decide (k < 6) && v.getLsbD k) := by
  rw [BitVec.getLsbD_setWidth, getLsbD_maskValue, Variant.bitsPerRegister]
  grind

/-- R112 read bit by bit, one case per word written: the field holds the value, every other bit is kept. -/
theorem bit_packedSet (words : Memory 64) (i : Nat) (v : Byte) (p : Nat) :
    (Storage.packed (packedSet words i ((maskValue .packed v).setWidth 64))).bit p =
      if 6 * i ≤ p ∧ p < 6 * i + 6 then v.getLsbD (p - 6 * i) else (Storage.packed words).bit p := by
  obtain ⟨a, b, hb, rfl⟩ : ∃ a b, b < 64 ∧ p = 64 * a + b := ⟨p / 64, p % 64, by omega, by omega⟩
  have hsplit := bitOffset_split i
  have hlt := shift_lt i
  have hmask : 0x3F#64 = mask 6 := rfl
  rw [Storage.bit_packed_word _ _ _ hb, Storage.bit_packed_word _ _ _ hb, read_packedSet]
  by_cases hs : straddles i = true
  · have hlate := (straddles_iff i).mp hs
    rw [if_pos hs]
    split
    · subst a
      simp only [BitVec.getLsbD_or, BitVec.getLsbD_and, BitVec.getLsbD_not, BitVec.getLsbD_ushiftRight,
        getLsbD_mask, getLsbD_packedValue, highBits, lowBits]
      grind
    · split
      · subst a
        simp only [BitVec.getLsbD_or, BitVec.getLsbD_and, BitVec.getLsbD_shiftLeft, getLsbD_mask,
          getLsbD_packedValue, lowBits]
        grind
      · rw [if_neg (by omega)]
  · have hearly : ¬ 58 < shift i := fun h => hs ((straddles_iff i).mpr h)
    rw [if_neg hs]
    split
    · subst a
      simp only [hmask, BitVec.getLsbD_or, BitVec.getLsbD_and, BitVec.getLsbD_not, BitVec.getLsbD_shiftLeft,
        getLsbD_mask, getLsbD_packedValue]
      grind
    · rw [if_neg (by omega)]

theorem getLsbD_cell (cells : Memory 8) (i k : Nat) :
    (cells.read i).getLsbD k = (decide (k < 8) && (Storage.unpacked cells).bit (8 * i + k)) := by
  by_cases hk : k < 8
  · simp [Storage.bit, show (8 * i + k) / 8 = i by omega, show (8 * i + k) % 8 = k by omega, hk]
  · simp [BitVec.getLsbD_of_ge _ k (Nat.le_of_not_lt hk), hk]

theorem bit_write_cell (cells : Memory 8) (i : Nat) (v : Byte) (p : Nat) :
    (Storage.unpacked (cells.write i (maskValue .unpacked v))).bit p =
      if 8 * i ≤ p ∧ p < 8 * i + 8 then v.getLsbD (p - 8 * i) else (Storage.unpacked cells).bit p := by
  simp only [Storage.bit, Memory.read_write]
  by_cases hp : p / 8 = i
  · rw [if_pos hp, if_pos (by omega), getLsbD_maskValue, Variant.bitsPerRegister,
      show p % 8 = p - 8 * i by omega]
    simp [show p - 8 * i < 8 by omega]
  · rw [if_neg hp, if_neg (by omega)]

/-- The layout, for both variants: register `i` is the stream bits from `i * bitsPerRegister` on (R51, R55). -/
theorem Storage.getLsbD_get (st : Storage) (i k : Nat) :
    (st.get i).getLsbD k =
      (decide (k < st.variant.bitsPerRegister) && st.bit (st.variant.bitsPerRegister * i + k)) := by
  cases st with
  | packed words =>
    rw [Storage.get, BitVec.getLsbD_setWidth, getLsbD_packedGet]
    simp only [Storage.variant, Variant.bitsPerRegister]
    grind
  | unpacked cells => exact getLsbD_cell cells i k

/-- Every bit after a store, padding included: those of register `i` are the value's, the others as they were
(R112, R117). -/
theorem Storage.bit_set (st : Storage) (i : Nat) (v : Byte) (p : Nat) :
    (st.set i v).bit p =
      if st.variant.bitsPerRegister * i ≤ p ∧
          p < st.variant.bitsPerRegister * i + st.variant.bitsPerRegister
      then v.getLsbD (p - st.variant.bitsPerRegister * i)
      else st.bit p := by
  cases st with
  | packed words => exact bit_packedSet words i v p
  | unpacked cells => exact bit_write_cell cells i v p

/-! ## The register view after a store -/

/-- The bits of two registers do not overlap. -/
theorem field_disjoint (var : Variant) {i j k : Nat} (h : j ≠ i) (hk : k < var.bitsPerRegister) :
    ¬ (var.bitsPerRegister * i ≤ var.bitsPerRegister * j + k ∧
      var.bitsPerRegister * j + k < var.bitsPerRegister * i + var.bitsPerRegister) := by
  cases var <;> simp only [Variant.bitsPerRegister] at * <;> omega

/-- R115 on the storage: a register reads as what was stored, masked to the storage width. -/
@[simp] theorem Storage.get_set_same (st : Storage) (i : Nat) (v : Byte) :
    (st.set i v).get i = maskValue st.variant v := by
  apply BitVec.eq_of_getLsbD_eq
  intro k _
  rw [Storage.getLsbD_get, Storage.bit_set, Storage.variant_set, getLsbD_maskValue]
  by_cases hk : k < st.variant.bitsPerRegister
  · rw [if_pos (by omega), Nat.add_sub_cancel_left]
  · simp [hk]

/-- R116 on the storage: a store leaves every other register as it was. -/
theorem Storage.get_set_of_ne (st : Storage) {i j : Nat} (v : Byte) (h : j ≠ i) :
    (st.set i v).get j = st.get j := by
  apply BitVec.eq_of_getLsbD_eq
  intro k _
  rw [Storage.getLsbD_get, Storage.getLsbD_get, Storage.bit_set, Storage.variant_set]
  by_cases hk : k < st.variant.bitsPerRegister
  · rw [if_neg (field_disjoint _ h hk)]
  · simp [hk]

/-- The register view through a store, as one equation. -/
theorem State.reg_setReg (s : State) (i j : Nat) (v : Byte) :
    (s.setReg i v).reg j = if j = i then maskValue s.variant v else s.reg j := by
  split
  · subst j; exact Storage.get_set_same _ _ _
  · exact Storage.get_set_of_ne _ _ ‹_›

@[simp] theorem State.reg_clear (s : State) (i : Nat) : s.clear.reg i = 0 :=
  Storage.get_empty _ _

/-! ## A storage that fits its precision -/

theorem Memory.mem_of_read_ne_zero {n : Nat} (m : Memory n) (a : Nat) (h : m.read a ≠ 0) :
    (a, m.read a) ∈ m := by
  induction m with
  | nil => simp at h
  | cons c m ih =>
    obtain ⟨b, x⟩ := c
    by_cases hb : b = a
    · simp [Memory.read_cons, hb]
    · rw [Memory.read_cons, if_neg hb] at h ⊢
      exact List.mem_cons_of_mem _ (ih h)

theorem Memory.ne_zero_of_mem {n : Nat} (m : Memory n) (h : m.wf = true) (c : Nat × BitVec n) (hc : c ∈ m) :
    c.2 ≠ 0 := by
  induction m with
  | nil => simp at hc
  | cons d m ih =>
    obtain ⟨hx, -, hm⟩ := (Memory.wf_cons d.1 d.2 m).mp h
    rcases List.mem_cons.mp hc with rfl | hc
    · exact hx
    · exact ih hm hc

/-- In a canonical memory, what holds of every entry holds of every non-zero read, and the converse. -/
theorem Memory.forall_mem_iff_read {n : Nat} (m : Memory n) (h : m.wf = true) (P : Nat → BitVec n → Prop) :
    (∀ c ∈ m, P c.1 c.2) ↔ ∀ a, m.read a ≠ 0 → P a (m.read a) := by
  refine ⟨fun hP a ha => hP _ (Memory.mem_of_read_ne_zero m a ha), fun hP c hc => ?_⟩
  have hread := Memory.read_of_mem m h c hc
  rw [← hread]
  exact hP _ (hread ▸ Memory.ne_zero_of_mem m h c hc)

/-- The sparse memory of the storage is in its canonical form. -/
def Storage.canonical : Storage → Bool
  | .packed words => words.wf
  | .unpacked cells => cells.wf

theorem Storage.canonical_set (st : Storage) (i : Nat) (v : Byte) (h : st.canonical = true) :
    (st.set i v).canonical = true := by
  cases st with
  | packed words => exact wf_packedSet words i _ h
  | unpacked cells => exact Memory.wf_write cells i _ h

/-- A word lies in `[0, W)` with its padding 0 exactly when none of its bits has a stream position from `6m` on. -/
theorem word_fits_iff (B : Precision) (a : Nat) (x : Word) (hx : x ≠ 0) :
    (a < B.W ∧ x >>> (6 * B.m - 64 * a) = 0) ↔ ∀ k, 6 * B.m ≤ 64 * a + k → x.getLsbD k = false := by
  constructor
  · rintro ⟨-, hpad⟩ k hk
    have := congrArg (fun y => y.getLsbD (k - (6 * B.m - 64 * a))) hpad
    simpa [Nat.add_sub_cancel' (show 6 * B.m - 64 * a ≤ k by omega)] using this
  · intro hbits
    have hpad : x >>> (6 * B.m - 64 * a) = 0 := by
      apply BitVec.eq_of_getLsbD_eq
      intro k _
      simp [hbits (6 * B.m - 64 * a + k) (by omega)]
    refine ⟨Nat.lt_of_not_le fun hle => hx ?_, hpad⟩
    rwa [show 6 * B.m - 64 * a = 0 by rw [Precision.W] at hle; omega, BitVec.ushiftRight_zero] at hpad

/-- A storage fits its precision exactly when it is canonical and no bit from `m * bitsPerRegister` on is set:
nothing outside the backing space and no padding (R25, R50). -/
theorem Storage.wf_iff (B : Precision) (st : Storage) :
    st.wf B = true ↔ st.canonical = true ∧ ∀ p, st.variant.bitsPerRegister * B.m ≤ p → st.bit p = false := by
  cases st with
  | packed words =>
    simp only [Storage.wf, Storage.canonical, Storage.variant, Variant.bitsPerRegister, Bool.and_eq_true,
      List.all_eq_true, decide_eq_true_eq, beq_iff_eq]
    refine and_congr_right fun hcanon => ?_
    rw [Memory.forall_mem_iff_read words hcanon fun a x => a < B.W ∧ x >>> (6 * B.m - 64 * a) = 0]
    constructor
    · intro hfit p hp
      by_cases hread : words.read (p / 64) = 0
      · simp [Storage.bit, hread]
      · exact (word_fits_iff B _ _ hread).mp (hfit _ hread) _ (by omega)
    · intro hbits a hread
      refine (word_fits_iff B a _ hread).mpr fun k hk => ?_
      by_cases hk64 : k < 64
      · rw [← Storage.bit_packed_word _ _ _ hk64, hbits _ hk]
      · exact BitVec.getLsbD_of_ge _ _ (Nat.le_of_not_lt hk64)
  | unpacked cells =>
    simp only [Storage.wf, Storage.canonical, Storage.variant, Variant.bitsPerRegister, Bool.and_eq_true,
      List.all_eq_true, decide_eq_true_eq]
    refine and_congr_right fun hcanon => ?_
    rw [Memory.forall_mem_iff_read cells hcanon fun a _ => a < B.m]
    constructor
    · intro hfit p hp
      have hread : cells.read (p / 8) = 0 := by_contra fun hne => by have := hfit _ hne; omega
      simp [Storage.bit, hread]
    · intro hbits a hread
      refine Nat.lt_of_not_le fun hle => hread (BitVec.eq_of_getLsbD_eq fun k _ => ?_)
      simp [getLsbD_cell, hbits (8 * a + k) (by omega)]

/-- A store inside the register array keeps the storage's fit. -/
theorem Storage.wf_set {B : Precision} {st : Storage} (h : st.wf B = true) {i : Nat} (hi : i < B.m) (v : Byte) :
    (st.set i v).wf B = true := by
  obtain ⟨hcanon, hbits⟩ := (Storage.wf_iff B st).mp h
  refine (Storage.wf_iff B _).mpr ⟨Storage.canonical_set st i v hcanon, fun p hp => ?_⟩
  rw [Storage.variant_set] at hp
  have hfield : st.variant.bitsPerRegister * (i + 1) ≤ st.variant.bitsPerRegister * B.m :=
    Nat.mul_le_mul_left _ hi
  rw [Storage.bit_set, if_neg (by rw [Nat.mul_succ] at hfield; omega), hbits p hp]

/-! ## Every step keeps the fit -/

theorem exec_keeps_wf (i : Instr) {s t : State} (h : s.wf = true) (hexec : exec i s = .next t) : t.wf = true := by
  obtain ⟨st, r, heq, hst⟩ := exec_cases i s
  rw [heq] at hexec
  cases hexec
  obtain rfl | ⟨j, v, hj, rfl⟩ | rfl := hst
  · exact h
  · exact Storage.wf_set h hj v
  · exact Storage.wf_empty s.B s.variant

theorem execWord_keeps_wf (c : Word) {s t : State} (h : s.wf = true) (hexec : execWord c s = .next t) :
    t.wf = true := by
  cases hc : decode c with
  | ok i => exact exec_keeps_wf i h (execWord_of_decode_ok hc s ▸ hexec)
  | error e =>
    rw [execWord_of_decode_error hc] at hexec
    cases hexec
    exact h

theorem wf_of_powerOn {s t : State} {cfgB : BitVec 6} {v : Variant} (h : s.powerOn cfgB v = .next t) :
    t.wf = true := by
  unfold State.powerOn at h
  split at h
  · cases h
    exact Storage.wf_empty _ v
  · cases h

/-- Settles O16, by the kinds of input. A stored register lies below `m`, so the bits it writes are neither padding
nor outside the backing space (`Storage.wf_set`); a power-on or a `RESET` leaves the all-zero storage. -/
theorem stepKeepsStorageFit : Obligations.StepKeepsStorageFit := by
  intro s t h hstep
  match hin : s.inputs with
  | [] =>
    rw [step_of_no_input s hin] at hstep
    cases hstep
    exact h
  | .command c :: rest => exact execWord_keeps_wf c (s := s.take) h (step_command s c rest hin ▸ hstep)
  | .powerOn cfgB v :: rest => exact wf_of_powerOn (step_powerOn s cfgB v rest hin ▸ hstep)

/-! ## The reset state, and the commands that only read -/

/-- Settles O15: the storage of the reset state is the all-zero one. -/
theorem resetIsEmpty : Obligations.ResetIsEmpty :=
  ⟨Storage.wf_empty 4 .packed, Storage.bit_empty .packed, Storage.get_empty .packed⟩

/-- The eight commands by what they do: the three that write the storage, and the five that only deliver a
response (R33). -/
theorem writes_or_delivers (i : Instr) :
    (∃ j v, i = .set j v) ∨ (∃ d, i = .add d) ∨ i = .reset ∨ ∀ s, ∃ r, exec i s = .next (s.deliver r) := by
  cases i with
  | set j v => exact .inl ⟨j, v, rfl⟩
  | add d => exact .inr (.inl ⟨d, rfl⟩)
  | reset => exact .inr (.inr (.inl rfl))
  | get j =>
    refine .inr (.inr (.inr fun s => ?_))
    by_cases hj : indexInRange s.B j = true
    · exact ⟨_, if_pos hj⟩
    · exact ⟨_, if_neg hj⟩
  | estimate => exact .inr (.inr (.inr fun s => ⟨_, rfl⟩))
  | rdb => exact .inr (.inr (.inr fun s => ⟨_, rfl⟩))
  | rdm => exact .inr (.inr (.inr fun s => ⟨_, rfl⟩))
  | rdfoot => exact .inr (.inr (.inr fun s => ⟨_, rfl⟩))

/-- Settles O53: delivering a response changes nothing else. -/
theorem readCommandsChangeNothing : Obligations.ReadCommandsChangeNothing := by
  intro i s t hset hadd hreset hexec
  obtain ⟨j, v, rfl⟩ | ⟨d, rfl⟩ | rfl | hread := writes_or_delivers i
  · exact absurd rfl (hset j v)
  · exact absurd rfl (hadd d)
  · exact absurd rfl hreset
  · obtain ⟨r, heq⟩ := hread s
    rw [heq] at hexec
    cases hexec
    exact ⟨r, rfl⟩

/-! ## Values that fit a register -/

theorem toNat_maskValue (var : Variant) (v : Byte) :
    (maskValue var v).toNat = v.toNat % 2 ^ var.bitsPerRegister := by
  have hmax : (BitVec.ofNat 8 var.registerMax).toNat = 2 ^ var.bitsPerRegister - 1 := by cases var <;> rfl
  rw [maskValue, BitVec.toNat_and, hmax, Nat.and_two_pow_sub_one_eq_mod]

theorem maskValue_of_lt {var : Variant} {v : Byte} (h : v.toNat < 2 ^ var.bitsPerRegister) :
    maskValue var v = v :=
  BitVec.eq_of_toNat_eq (by rw [toNat_maskValue, Nat.mod_eq_of_lt h])

@[simp] theorem maskValue_unpacked (v : Byte) : maskValue .unpacked v = v := maskValue_of_lt v.isLt

theorem Storage.maskValue_get (st : Storage) (i : Nat) : maskValue st.variant (st.get i) = st.get i := by
  apply BitVec.eq_of_getLsbD_eq
  intro k _
  rw [getLsbD_maskValue, Storage.getLsbD_get, ← Bool.and_assoc, Bool.and_self]

/-- R22's storage bound: a register never holds more than `registerMax`. -/
theorem State.reg_lt (s : State) (i : Nat) : (s.reg i).toNat < 2 ^ s.variant.bitsPerRegister := by
  rw [State.reg, ← Storage.maskValue_get, toNat_maskValue]
  exact Nat.mod_lt _ (Nat.two_pow_pos _)

/-! ## What `ADD` leaves in the registers -/

theorem rankOfDigest_le (B : Precision) (d : U32) : rankOfDigest B d ≤ B.maxBits + 1 := by
  have := (lzFrom_bounds (tailOf B d) B.maxBits 0).2
  simp only [rankOfDigest, rankOf, lzTop]; omega

theorem rankOfDigest_le_33 (B : Precision) (d : U32) : rankOfDigest B d ≤ 33 := by
  have := rankOfDigest_le B d
  simp only [Precision.maxBits] at this; omega

theorem toNat_maxUpdate (cur : Byte) {rank : Nat} (h : rank ≤ 33) :
    (maxUpdate cur rank).toNat = max cur.toNat rank := by
  have := cur.isLt
  rw [maxUpdate, BitVec.toNat_ofNat, Nat.mod_eq_of_lt (by omega)]

/-- The mask of `set` changes no maximum of a register and a rank (R136). -/
theorem toNat_maskValue_maxUpdate {var : Variant} {cur : Byte} {rank : Nat}
    (hcur : cur.toNat < 2 ^ var.bitsPerRegister) (hrank : rank ≤ 33) :
    (maskValue var (maxUpdate cur rank)).toNat = max cur.toNat rank := by
  have hpow : 33 < 2 ^ var.bitsPerRegister := by cases var <;> decide
  rw [toNat_maskValue, toNat_maxUpdate cur hrank, Nat.mod_eq_of_lt (by omega)]

/-- Every register after an `ADD`: the maximum in the bucket of the digest, the others as they were (R130, R134). -/
theorem reg_of_add {d : U32} {s t : State} (h : exec (.add d) s = .next t) (k : Nat) :
    (t.reg k).toNat =
      if k = bucket s.B d then max (s.reg k).toNat (rankOfDigest s.B d) else (s.reg k).toNat := by
  cases h
  rw [State.reg_respond, State.reg_setReg]
  split
  · subst k
    exact toNat_maskValue_maxUpdate (State.reg_lt s _) (rankOfDigest_le_33 s.B d)
  · rfl

/-- Every register after a `SET`, in range or not, but the one it names. -/
theorem reg_of_set_of_ne {j : U32} {v : Byte} {s t : State} (h : exec (.set j v) s = .next t) {k : Nat}
    (hk : k ≠ j.toNat) : t.reg k = s.reg k := by
  simp only [exec, execSet] at h
  split at h
  · cases h
    rw [State.reg_respond, State.reg_setReg, if_neg hk]
  · cases h
    rfl

/-! ## The range of the registers -/

/-- Settles O34: `ADD` stores the maximum of a bounded register and a rank, `RESET` stores 0, and the others but
`SET` only deliver a response. -/
theorem ranksStayBounded : Obligations.RanksStayBounded := by
  refine ⟨fun k _ => ?_, fun i s t hs hset hexec => ?_⟩
  · obtain ⟨-, -, hzero⟩ := resetIsEmpty
    simp [hzero k]
  · obtain ⟨j, v, rfl⟩ | ⟨d, rfl⟩ | rfl | hread := writes_or_delivers i
    · exact absurd rfl (hset j v)
    · have hB : t.B = s.B := by cases hexec; rfl
      intro k hk
      rw [hB] at hk ⊢
      have hcur := hs k hk
      have hrank := rankOfDigest_le s.B d
      rw [reg_of_add hexec]
      split <;> omega
    · cases hexec
      intro k _
      simp
    · obtain ⟨r, heq⟩ := hread s
      rw [heq] at hexec
      cases hexec
      exact hs

/-- Settles O35: a `SET` changes no register but its own, `ADD` takes a maximum with the old value, and the others
but `RESET` only deliver a response. -/
theorem onlySetAndResetLowerARegister : Obligations.OnlySetAndResetLowerARegister := by
  intro i s t k _ hexec hlower
  obtain ⟨j, v, rfl⟩ | ⟨d, rfl⟩ | rfl | hread := writes_or_delivers i
  · refine .inr ⟨j, v, rfl, ?_⟩
    by_contra hne
    rw [reg_of_set_of_ne hexec (Ne.symm hne)] at hlower
    exact lt_irrefl _ hlower
  · rw [reg_of_add hexec] at hlower
    split at hlower <;> omega
  · exact .inl rfl
  · obtain ⟨r, heq⟩ := hread s
    rw [heq] at hexec
    cases hexec
    exact absurd hlower (lt_irrefl _)

/-! ## Two blocks of one register view -/

/-- What a command does to the storage. -/
inductive StorageEffect where
  | keep
  | store (j : Nat) (v : Byte)
  | clear

/-- The state after the effect. -/
def StorageEffect.apply : StorageEffect → State → State
  | .keep, s => s
  | .store j v, s => s.setReg j v
  | .clear, s => s.clear

@[simp] theorem StorageEffect.apply_keep (s : State) : StorageEffect.keep.apply s = s := rfl
@[simp] theorem StorageEffect.apply_store (j : Nat) (v : Byte) (s : State) :
    (StorageEffect.store j v).apply s = s.setReg j v := rfl
@[simp] theorem StorageEffect.apply_clear (s : State) : StorageEffect.clear.apply s = s.clear := rfl

@[simp] theorem StorageEffect.apply_B (e : StorageEffect) (s : State) : (e.apply s).B = s.B := by
  cases e <;> rfl

@[simp] theorem StorageEffect.apply_responses (e : StorageEffect) (s : State) :
    (e.apply s).responses = s.responses := by
  cases e <;> rfl

@[simp] theorem StorageEffect.variant_apply (e : StorageEffect) (s : State) : (e.apply s).variant = s.variant := by
  cases e <;> simp

/-- What a command stores: the value of a `SET`, or at most the larger of the old register and the largest rank. -/
def StorageEffect.StoredBy (e : StorageEffect) (i : Instr) (s : State) : Prop :=
  ∀ j v, e = .store j v → (∃ idx, i = .set idx v) ∨ v.toNat ≤ max (s.reg j).toNat 33

theorem registers_eq_of_sameView {s t : State} (h : SameView s t) : s.registers = t.registers := by
  obtain ⟨hB, hview⟩ := h
  rw [State.registers, State.registers, ← hB]
  exact List.map_congr_left fun k hk => hview k (List.mem_range.mp hk)

/-- Two blocks of one register view execute a command in lockstep: the same effect on both storages, and the same
response, unless the variants differ and the command is `RDFOOT`. -/
theorem exec_lockstep (i : Instr) {s t : State} (h : SameView s t) :
    ∃ e r r', exec i s = .next ((StorageEffect.apply e s).deliver r) ∧
      exec i t = .next ((StorageEffect.apply e t).deliver r') ∧ e.StoredBy i s ∧
      (i ≠ .rdfoot ∨ s.variant = t.variant → r = r') := by
  obtain ⟨hB, hview⟩ := h
  have hkeep : StorageEffect.keep.StoredBy i s := fun _ _ he => by cases he
  cases i with
  | get j =>
    by_cases hj : indexInRange s.B j = true
    · have hreg := hview _ ((indexInRange_iff _ _).mp hj)
      exact ⟨.keep, _, _, if_pos hj, if_pos (hB ▸ hj), hkeep, fun _ => by rw [hreg]⟩
    · exact ⟨.keep, _, _, if_neg hj, if_neg (hB ▸ hj), hkeep, fun _ => rfl⟩
  | set j v =>
    by_cases hj : indexInRange s.B j = true
    · have hstored : (StorageEffect.store j.toNat v).StoredBy (.set j v) s := fun _ _ he => by
        cases he
        exact .inl ⟨j, rfl⟩
      exact ⟨.store j.toNat v, _, _, if_pos hj, if_pos (hB ▸ hj), hstored, fun _ => rfl⟩
    · exact ⟨.keep, _, _, if_neg hj, if_neg (hB ▸ hj), hkeep, fun _ => rfl⟩
  | add d =>
    refine ⟨.store (bucket s.B d) (maxUpdate (s.reg (bucket s.B d)) (rankOfDigest s.B d)), _, .okay 0, rfl, ?_,
      fun j v he => ?_, fun _ => rfl⟩
    · rw [hview _ (bucket_lt s.B d), hB]
      rfl
    · cases he
      have hrank := rankOfDigest_le_33 s.B d
      exact .inr ((toNat_maxUpdate _ hrank).trans_le (max_le_max le_rfl hrank))
  | estimate =>
    exact ⟨.keep, _, _, rfl, rfl, hkeep, fun _ => by rw [registers_eq_of_sameView ⟨hB, hview⟩, hB]⟩
  | reset => exact ⟨.clear, _, _, rfl, rfl, fun _ _ he => (by cases he), fun _ => rfl⟩
  | rdb => exact ⟨.keep, _, _, rfl, rfl, hkeep, fun _ => by rw [hB]⟩
  | rdm => exact ⟨.keep, _, _, rfl, rfl, hkeep, fun _ => by rw [hB]⟩
  | rdfoot =>
    refine ⟨.keep, _, _, rfl, rfl, hkeep, fun hv => ?_⟩
    obtain hne | hv := hv
    · exact absurd rfl hne
    · rw [hB, hv]

/-! ### Two packed blocks that differ in the padding -/

theorem sameView_of_stream {s t : State} (hB : s.B = t.B) (hs : s.variant = .packed) (ht : t.variant = .packed)
    (hbits : ∀ p, p < 6 * s.B.m → s.storage.bit p = t.storage.bit p) : SameView s t := by
  refine ⟨hB, fun k hk => BitVec.eq_of_getLsbD_eq fun b _ => ?_⟩
  rw [State.reg, State.reg, Storage.getLsbD_get, Storage.getLsbD_get, show s.storage.variant = .packed from hs,
    show t.storage.variant = .packed from ht, Variant.bitsPerRegister]
  by_cases hb : b < 6
  · rw [hbits _ (by omega)]
  · simp [hb]

/-- One effect on two storages of one variant leaves equal bits equal. -/
theorem StorageEffect.bit_apply_congr (e : StorageEffect) {s t : State} (hv : s.variant = t.variant) {p : Nat}
    (hp : s.storage.bit p = t.storage.bit p) : (e.apply s).storage.bit p = (e.apply t).storage.bit p := by
  cases e with
  | keep => exact hp
  | store j v =>
    rw [apply_store, apply_store, State.setReg_storage, State.setReg_storage, Storage.bit_set, Storage.bit_set, hp,
      show s.storage.variant = t.storage.variant from hv]
  | clear => simp

/-- Settles O17: the stream below `6m` gives the register view, so the two blocks run in lockstep. -/
theorem paddingIsNeverRead : Obligations.PaddingIsNeverRead := by
  intro i s t hB hs ht hresp hbits
  have hv : s.variant = t.variant := hs.trans ht.symm
  obtain ⟨e, r, r', hexec, hexec', -, hr⟩ := exec_lockstep i (sameView_of_stream hB hs ht hbits)
  refine ⟨_, _, hexec, hexec', ?_, fun p hp => e.bit_apply_congr hv (hbits p hp)⟩
  simp [hresp, hr (.inr hv)]

/-! ### A packed and an unpacked block -/

/-- One effect keeps a common register view when both variants store its value alike. -/
theorem StorageEffect.sameView_apply (e : StorageEffect) {s t : State} (h : SameView s t)
    (hstore : ∀ j v, e = .store j v → maskValue s.variant v = maskValue t.variant v) :
    SameView (e.apply s) (e.apply t) := by
  obtain ⟨hB, hview⟩ := h
  refine ⟨by simpa using hB, fun k hk => ?_⟩
  rw [apply_B] at hk
  cases e with
  | keep => exact hview k hk
  | store j v =>
    rw [apply_store, apply_store, State.reg_setReg, State.reg_setReg, hstore j v rfl, hview k hk]
  | clear => simp

/-- One command from a packed and an unpacked block of one view: the view stays common, and the responses are equal
but for `RDFOOT`. -/
theorem exec_variants_agree (i : Instr) {s t : State} (h : SameView s t) (hs : s.variant = .packed)
    (ht : t.variant = .unpacked) (hset : ∀ j v, i = .set j v → v.toNat ≤ 63) :
    ∃ s' t' r r', exec i s = .next s' ∧ exec i t = .next t' ∧ SameView s' t' ∧ s'.variant = .packed ∧
      t'.variant = .unpacked ∧ s'.responses = s.responses ++ [r] ∧ t'.responses = t.responses ++ [r'] ∧
      (i ≠ .rdfoot → r = r') := by
  obtain ⟨e, r, r', hexec, hexec', hby, hr⟩ := exec_lockstep i h
  have hstore : ∀ j v, e = .store j v → maskValue s.variant v = maskValue t.variant v := by
    intro j v he
    have hreg := State.reg_lt s j
    have hv : v.toNat < 2 ^ Variant.packed.bitsPerRegister := by
      rw [hs] at hreg
      simp only [Variant.bitsPerRegister] at *
      obtain ⟨idx, hi⟩ | hmax := hby j v he
      · have := hset idx v hi; omega
      · omega
    rw [hs, ht, maskValue_of_lt hv, maskValue_unpacked]
  exact ⟨_, _, r, r', hexec, hexec', e.sameView_apply h hstore, by simp [hs], by simp [ht], by simp, by simp,
    fun hi => hr (.inl hi)⟩

theorem execAll_cons_of_next {i : Instr} {s s' : State} (h : exec i s = .next s') (rest : List Instr) :
    execAll (i :: rest) s = execAll rest s' := by
  rw [execAll, h, andThen]

/-- The lockstep over a sequence of commands, by induction on it: response by response, with the common view and the
two variants kept by each command (`exec_variants_agree`). -/
theorem execAll_variants_agree (cmds : List Instr) : ∀ s t : State, SameView s t → s.variant = .packed →
    t.variant = .unpacked → (∀ j v, .set j v ∈ cmds → v.toNat ≤ 63) →
    ∃ s' t' rs rt, execAll cmds s = .next s' ∧ execAll cmds t = .next t' ∧ SameView s' t' ∧
      s'.responses = s.responses ++ rs ∧ t'.responses = t.responses ++ rt ∧
      rs.length = cmds.length ∧ rt.length = cmds.length ∧
      ∀ k : Nat, cmds[k]? ≠ some Instr.rdfoot → rs[k]? = rt[k]? := by
  induction cmds with
  | nil => exact fun s t h _ _ _ => ⟨s, t, [], [], rfl, rfl, h, by simp, by simp, rfl, rfl, fun _ _ => rfl⟩
  | cons i rest ih =>
    intro s t h hs ht hset
    obtain ⟨s₁, t₁, r, r', hexec, hexec', h₁, hs₁, ht₁, hrs₁, hrt₁, hr⟩ :=
      exec_variants_agree i h hs ht fun j v hi => hset j v (hi ▸ List.mem_cons_self)
    obtain ⟨s', t', rs, rt, hall, hall', h', hrs, hrt, hlen, hlen', heq⟩ :=
      ih s₁ t₁ h₁ hs₁ ht₁ fun j v hmem => hset j v (List.mem_cons_of_mem _ hmem)
    refine ⟨s', t', r :: rs, r' :: rt, (execAll_cons_of_next hexec rest).trans hall,
      (execAll_cons_of_next hexec' rest).trans hall', h', by simp [hrs, hrs₁], by simp [hrt, hrt₁],
      by simp [hlen], by simp [hlen'], fun k hk => ?_⟩
    cases k with
    | zero => simpa using hr (by simpa using hk)
    | succ k => simpa using heq k (by simpa using hk)

/-- A `SET` in range leaves its register with the value masked to the storage width (R114, R115). -/
theorem exec_set_masks (j : U32) (v : Byte) (s : State) (hj : j.toNat < s.B.m) :
    ∃ t, exec (.set j v) s = .next t ∧ t.reg j.toNat = maskValue s.variant v :=
  ⟨_, if_pos ((indexInRange_iff _ _).mpr hj), by rw [State.reg_respond, State.reg_setReg, if_pos rfl]⟩

/-- Settles O36, by induction on the commands (`execAll_variants_agree`). The lockstep breaks only where the two
masks differ on a stored value, as they do on 100. -/
theorem variantsAgree : Obligations.VariantsAgree := by
  refine ⟨execAll_variants_agree, fun s t hs ht => ?_⟩
  obtain ⟨s', hexec, hreg⟩ := exec_set_masks 0 100 s (Precision.m_pos s.B)
  obtain ⟨t', hexec', hreg'⟩ := exec_set_masks 0 100 t (Precision.m_pos t.B)
  rw [hs] at hreg
  rw [ht] at hreg'
  exact ⟨s', t', hexec, hexec', hreg.trans (by decide), hreg'.trans (by decide)⟩

end Sys2Proof.Machine
end

section
/-! PROOFS. The statements of spec/20_memory.md: where a register lies, the index check of `GET` and `SET`, two
stores into different registers, and the run over the host's inputs. -/

namespace Sys2Proof.Machine

/-! ## The run over the host's inputs -/

theorem powerOn_of_strapWellFormed {cfgB : BitVec 6} (h : strapWellFormed cfgB = true) (v : Variant) (s : State) :
    s.powerOn cfgB v = .next { s with B := precisionOfStrap cfgB, storage := Storage.empty v } :=
  if_pos h

theorem State.safe_iff_of_inputs_cons {s : State} {input : HostInput} {rest : List HostInput}
    (h : s.inputs = input :: rest) :
    s.Safe ↔ s.wf = true ∧ input.admitted = true ∧ rest.all HostInput.admitted = true := by
  rw [State.Safe, h, List.all_cons, Bool.and_eq_true]

@[simp] theorem commandCount_command (c : Word) (rest : List HostInput) :
    commandCount (.command c :: rest) = commandCount rest + 1 :=
  List.countP_cons_of_pos rfl

@[simp] theorem commandCount_powerOn (cfgB : BitVec 6) (v : Variant) (rest : List HostInput) :
    commandCount (.powerOn cfgB v :: rest) = commandCount rest :=
  List.countP_cons_of_neg (by simp)

/-- One step from a safe state takes the first input into a safe state, and the responses owed for the inputs left
make up the count (R80, R212). -/
theorem safe_step {s : State} {input : HostInput} {rest : List HostInput} (h : s.Safe)
    (hin : s.inputs = input :: rest) :
    ∃ t, step s = .next t ∧ t.Safe ∧ t.inputs = rest ∧
      t.responses.length + commandCount rest = s.responses.length + commandCount (input :: rest) := by
  obtain ⟨hwf, hadmitted, hrest⟩ := (State.safe_iff_of_inputs_cons hin).mp h
  obtain ⟨t, hstep, htin, hcount⟩ : ∃ t, step s = .next t ∧ t.inputs = rest ∧
      t.responses.length + commandCount rest = s.responses.length + commandCount (input :: rest) := by
    cases input with
    | command c =>
      obtain ⟨t, r, hstep, htin, hresp, -⟩ := everyCommandAnsweredOnce s c rest hin
      refine ⟨t, hstep, htin, ?_⟩
      simp only [hresp, List.length_append, List.length_singleton, commandCount_command]
      omega
    | powerOn cfgB v =>
      rw [step_powerOn s cfgB v rest hin, powerOn_of_strapWellFormed hadmitted]
      exact ⟨_, rfl, by simp [hin], by simp⟩
  exact ⟨t, hstep, ⟨stepKeepsStorageFit s t hwf hstep, htin ▸ hrest⟩, htin, hcount⟩

theorem run_succ_of_step {s t : State} (h : step s = .next t) (k : Nat) :
    Host.Core.run core (k + 1) s = Host.Core.run core k t := by
  simp only [Host.Core.run, core, h]

/-- Settles O13, by induction on the inputs: each step keeps `Safe` and pays what its input is owed (`safe_step`). -/
theorem safeRunAnswersEveryCommand : Obligations.SafeRunAnswersEveryCommand := by
  intro s
  induction hin : s.inputs generalizing s with
  | nil => exact fun h => ⟨s, rfl, h, hin, rfl⟩
  | cons input rest ih =>
    intro h
    obtain ⟨t, hstep, hsafe, htin, hcount⟩ := safe_step h hin
    obtain ⟨u, hrun, husafe, huin, hlen⟩ := ih t htin hsafe
    exact ⟨u, (run_succ_of_step hstep _).trans hrun, husafe, huin, hlen.trans hcount⟩

/-! ## Where a register lies -/

/-- Settles O20: the packed case of the layout of both variants (`Storage.getLsbD_get`); an unpacked `get` is the read
of the cell by definition. -/
theorem registerIsItsStreamBits : Obligations.RegisterIsItsStreamBits :=
  ⟨fun words i k => Storage.getLsbD_get (.packed words) i k, fun _ _ => rfl⟩

theorem shift_eq (i : Nat) : shift i = 6 * i % 64 := rfl

/-- Settles O19: 32 registers fill 3 words, so the offset depends on `i mod 32` alone. -/
theorem straddlingIndices : Obligations.StraddlingIndices := by
  intro i
  have hshift := shift_eq i
  refine ⟨by omega, by omega, ⟨shift_of_straddles i, fun h => (straddles_iff i).mpr ?_⟩, by omega,
    fun B hi => ⟨wordIndex_lt B i hi, wordIndex_succ_lt B i hi⟩⟩
  omega

/-! ## The index check -/

theorem exec_get_of_le {i : U32} {s : State} (h : s.B.m ≤ i.toNat) :
    exec (.get i) s = .next (s.raise .indexRange) :=
  if_neg fun hin => Nat.not_lt_of_le h ((indexInRange_iff _ _).mp hin)

theorem exec_set_of_le {i : U32} {s : State} (h : s.B.m ≤ i.toNat) (v : Byte) :
    exec (.set i v) s = .next (s.raise .indexRange) :=
  if_neg fun hin => Nat.not_lt_of_le h ((indexInRange_iff _ _).mp hin)

theorem exec_set_of_lt {i : U32} {s : State} (h : i.toNat < s.B.m) (v : Byte) :
    exec (.set i v) s = .next ((s.setReg i.toNat v).respond 0) :=
  if_pos ((indexInRange_iff _ _).mpr h)

/-- Settles O11: both commands raise `INDEX_RANGE` on the state as it was, and `m = 2^32` at `B = 32`. -/
theorem indexOutOfRangeIsAnswered : Obligations.IndexOutOfRangeIsAnswered :=
  ⟨fun _ _ h => ⟨exec_get_of_le h, exec_set_of_le h⟩, fun i => i.isLt⟩

/-! ## Two stores into different registers -/

/-- A canonical storage is determined by its variant and its bits. -/
theorem Storage.ext_of_bit {st st' : Storage} (h : st.canonical = true) (h' : st'.canonical = true)
    (hv : st.variant = st'.variant) (hbit : ∀ p, st.bit p = st'.bit p) : st = st' := by
  cases st with
  | packed words =>
    cases st' with
    | packed words' =>
      refine congrArg Storage.packed (Memory.ext_of_read words words' h h' fun a => ?_)
      refine BitVec.eq_of_getLsbD_eq fun k hk => ?_
      rw [← Storage.bit_packed_word words a k hk, hbit, Storage.bit_packed_word words' a k hk]
    | unpacked cells' => cases hv
  | unpacked cells =>
    cases st' with
    | packed words' => cases hv
    | unpacked cells' =>
      refine congrArg Storage.unpacked (Memory.ext_of_read cells cells' h h' fun a => ?_)
      refine BitVec.eq_of_getLsbD_eq fun k _ => ?_
      rw [getLsbD_cell, getLsbD_cell, hbit]

/-- No stream position lies in the fields of two registers. -/
theorem not_mem_both_fields (var : Variant) {i j p : Nat} (h : i ≠ j)
    (hi : var.bitsPerRegister * i ≤ p ∧ p < var.bitsPerRegister * i + var.bitsPerRegister) :
    ¬ (var.bitsPerRegister * j ≤ p ∧ p < var.bitsPerRegister * j + var.bitsPerRegister) := by
  have := field_disjoint var (k := p - var.bitsPerRegister * i) h (by omega)
  rwa [Nat.add_sub_cancel' hi.1] at this

/-- Stores into two different registers commute, also in a shared word: they write different bits (R65). -/
theorem Storage.set_comm {st : Storage} (hst : st.canonical = true) {i j : Nat} (h : i ≠ j) (v u : Byte) :
    (st.set i v).set j u = (st.set j u).set i v := by
  refine Storage.ext_of_bit (canonical_set _ j u (canonical_set st i v hst))
    (canonical_set _ i v (canonical_set st j u hst)) (by simp) fun p => ?_
  simp only [Storage.bit_set, Storage.variant_set]
  split
  · rw [if_neg (not_mem_both_fields _ h.symm ‹_›)]
  · rfl

theorem execAll_set_set {i j : U32} {s : State} (hi : i.toNat < s.B.m) (hj : j.toNat < s.B.m) (v u : Byte) :
    execAll [.set i v, .set j u] s =
      .next ((((s.setReg i.toNat v).respond 0).setReg j.toNat u).respond 0) := by
  rw [execAll_cons_of_next (exec_set_of_lt hi v)]
  exact execAll_cons_of_next (exec_set_of_lt (s := (s.setReg i.toNat v).respond 0) hj u) []

/-- Settles O25: either order appends the same two responses, and the two stores commute (`Storage.set_comm`). -/
theorem setsToDifferentIndicesCommute : Obligations.SetsToDifferentIndicesCommute := by
  intro i j v u s hwf hi hj hne
  obtain ⟨hcanon, -⟩ := (Storage.wf_iff s.B s.storage).mp hwf
  have hstorage := Storage.set_comm hcanon (fun h => hne (BitVec.eq_of_toNat_eq h)) v u
  refine ⟨_, execAll_set_set hi hj v u, ?_⟩
  rw [execAll_set_set hj hi u v]
  simp only [State.setReg, State.respond, State.deliver, hstorage]

end Sys2Proof.Machine
end

section
/-! SUPPORT. The rows of R84 in terms of the fields of R81: when a row selects a word, and when decoding answers
with it. -/

namespace Sys2Proof

/-! ## A word is its four fields -/

theorem append_fields (c : Word) : opField c ++ rsvField c ++ vField c ++ aField c = c := by
  rw [opField, rsvField, vField, aField,
    BitVec.extractLsb'_append_extractLsb'_eq_extractLsb' (show 60 = 40 + 20 from rfl),
    BitVec.extractLsb'_append_extractLsb'_eq_extractLsb' (show 40 = 32 + 8 from rfl),
    BitVec.extractLsb'_append_extractLsb'_eq_extractLsb' (show 32 = 0 + 32 from rfl)]
  exact BitVec.extractLsb'_eq_self

theorem eq_iff_fields_eq (c c' : Word) :
    c = c' ↔ opField c = opField c' ∧ rsvField c = rsvField c' ∧ vField c = vField c' ∧ aField c = aField c' := by
  refine ⟨by rintro rfl; exact ⟨rfl, rfl, rfl, rfl⟩, fun ⟨hop, hrsv, hv, ha⟩ => ?_⟩
  rw [← append_fields c, ← append_fields c', hop, hrsv, hv, ha]

theorem eq_commandWord_iff (c : Word) (op : BitVec 4) (v : Byte) (a : U32) :
    c = commandWord op v a ↔ opField c = op ∧ rsvField c = 0 ∧ vField c = v ∧ aField c = a := by
  rw [eq_iff_fields_eq, opField_commandWord, rsvField_commandWord, vField_commandWord, aField_commandWord]

@[simp] theorem opField_and (c c' : Word) : opField (c &&& c') = opField c &&& opField c' :=
  BitVec.extractLsb'_and

@[simp] theorem rsvField_and (c c' : Word) : rsvField (c &&& c') = rsvField c &&& rsvField c' :=
  BitVec.extractLsb'_and

@[simp] theorem vField_and (c c' : Word) : vField (c &&& c') = vField c &&& vField c' :=
  BitVec.extractLsb'_and

@[simp] theorem aField_and (c c' : Word) : aField (c &&& c') = aField c &&& aField c' :=
  BitVec.extractLsb'_and

/-! ## The rows of R84 -/

/-- The command of the row has a value operand (R82). -/
def Op.usesV : Op → Bool
  | .set => true
  | .get | .add | .estimate | .reset | .rdb | .rdm | .rdfoot => false

/-- The command of the row has an index or digest operand (R82). -/
def Op.usesA : Op → Bool
  | .get | .set | .add => true
  | .estimate | .reset | .rdb | .rdm | .rdfoot => false

theorem Op.matchWord_eq (o : Op) : o.matchWord = commandWord o.code 0 0 := by
  cases o <;> rfl

theorem Op.opField_mask (o : Op) : opField o.mask = BitVec.allOnes 4 := by
  cases o <;> rfl

theorem Op.rsvField_mask (o : Op) : rsvField o.mask = BitVec.allOnes 20 := by
  cases o <;> rfl

theorem Op.vField_mask (o : Op) : vField o.mask = if o.usesV then 0 else BitVec.allOnes 8 := by
  cases o <;> rfl

theorem Op.aField_mask (o : Op) : aField o.mask = if o.usesA then 0 else BitVec.allOnes 32 := by
  cases o <;> rfl

theorem and_mask_eq_zero_iff {w : Nat} (used : Bool) (x : BitVec w) :
    x &&& (if used then 0 else BitVec.allOnes w) = 0 ↔ (used = false → x = 0) := by
  cases used <;> simp

/-- The match and mask columns read by field: a row selects the words with its opcode in which `rsv` and every operand
field it does not use are 0 (R83, R87). -/
theorem Op.selectedBy_iff (o : Op) (c : Word) :
    o.selectedBy c = true ↔ opField c = o.code ∧ rsvField c = 0 ∧
      (o.usesV = false → vField c = 0) ∧ (o.usesA = false → aField c = 0) := by
  rw [Op.selectedBy, beq_iff_eq, Op.matchWord_eq, eq_commandWord_iff, opField_and, opField_mask, BitVec.and_allOnes,
    rsvField_and, rsvField_mask, BitVec.and_allOnes, vField_and, vField_mask, and_mask_eq_zero_iff, aField_and,
    aField_mask, and_mask_eq_zero_iff]

/-- The row of an opcode. -/
def rowOfCode (x : BitVec 4) : Option Op := opcodeTable.find? (fun o => o.code == x)

theorem rowOfCode_code (o : Op) : rowOfCode o.code = some o := by
  cases o <;> rfl

theorem Op.code_injective : Function.Injective Op.code := fun o p h =>
  Option.some_injective _ (by rw [← rowOfCode_code o, ← rowOfCode_code p, h])

/-- The assigned opcodes are 1 to 8 (R90). -/
theorem exists_code_eq_iff (x : BitVec 4) : (∃ o : Op, o.code = x) ↔ x ≠ 0x0 ∧ ¬ 0x9 ≤ x := by
  constructor
  · rintro ⟨o, rfl⟩
    cases o <;> decide
  · have hrow : ∀ y : BitVec 4, y ≠ 0x0 ∧ ¬ 0x9 ≤ y → ∃ o ∈ opcodeTable, o.code = y := by decide
    intro hx
    obtain ⟨o, -, ho⟩ := hrow x hx
    exact ⟨o, ho⟩

theorem Op.usesV_eq_false_iff (o : Op) : o.usesV = false ↔ o.code ≠ 0x2 := by
  cases o <;> decide

theorem Op.usesA_eq_false_iff (o : Op) : o.usesA = false ↔ 0x4 ≤ o.code := by
  cases o <;> decide

theorem Op.eq_of_selectedBy {o p : Op} {c : Word} (ho : o.selectedBy c = true) (hp : p.selectedBy c = true) :
    o = p := by
  obtain ⟨hcode, -⟩ := (Op.selectedBy_iff o c).mp ho
  obtain ⟨hcode', -⟩ := (Op.selectedBy_iff p c).mp hp
  exact Op.code_injective (hcode.symm.trans hcode')

/-! ## Decoding -/

/-- Decoding answers with the one row that selects the word. -/
theorem decode_eq_ok_iff (c : Word) (i : Instr) :
    decode c = .ok i ↔ ∃ o : Op, o.selectedBy c = true ∧ o.instr c = i := by
  rw [decode]
  split
  · next o hfind =>
    have ho : o.selectedBy c = true := by simpa using List.find?_some hfind
    constructor
    · exact fun h => ⟨o, ho, Except.ok.inj h⟩
    · rintro ⟨p, hp, rfl⟩
      rw [Op.eq_of_selectedBy ho hp]
  · next hfind =>
    refine ⟨nofun, fun ⟨p, hp, _⟩ => ?_⟩
    exact absurd hp (List.find?_eq_none.mp hfind p (mem_opcodeTable p))

theorem exists_decode_eq_ok_iff (c : Word) : (∃ i, decode c = .ok i) ↔ ∃ o : Op, o.selectedBy c = true := by
  constructor
  · rintro ⟨i, hi⟩
    obtain ⟨o, ho, -⟩ := (decode_eq_ok_iff c i).mp hi
    exact ⟨o, ho⟩
  · rintro ⟨o, ho⟩
    exact ⟨o.instr c, (decode_eq_ok_iff c _).mpr ⟨o, ho, rfl⟩⟩

/-- The legal words, by field (R87, R90). -/
theorem exists_selectedBy_iff (c : Word) :
    (∃ o : Op, o.selectedBy c = true) ↔
      (opField c ≠ 0x0 ∧ ¬ 0x9 ≤ opField c) ∧ rsvField c = 0 ∧ (opField c ≠ 0x2 → vField c = 0) ∧
        (0x4 ≤ opField c → aField c = 0) := by
  rw [← exists_code_eq_iff]
  constructor
  · rintro ⟨o, ho⟩
    obtain ⟨hcode, hfields⟩ := (Op.selectedBy_iff o c).mp ho
    rw [Op.usesV_eq_false_iff, Op.usesA_eq_false_iff, ← hcode] at hfields
    exact ⟨⟨o, hcode.symm⟩, hfields⟩
  · rintro ⟨⟨o, hcode⟩, hfields⟩
    rw [← hcode, ← Op.usesV_eq_false_iff, ← Op.usesA_eq_false_iff] at hfields
    exact ⟨o, (Op.selectedBy_iff o c).mpr ⟨hcode.symm, hfields⟩⟩

/-! ## Encoding -/

theorem Instr.vOperand_eq_zero (i : Instr) (h : i.op.usesV = false) : i.vOperand = 0 := by
  cases i with
  | set j v => cases h
  | get _ | add _ | estimate | reset | rdb | rdm | rdfoot => rfl

theorem Instr.aOperand_eq_zero (i : Instr) (h : i.op.usesA = false) : i.aOperand = 0 := by
  cases i with
  | get _ | set _ _ | add _ => cases h
  | estimate | reset | rdb | rdm | rdfoot => rfl

theorem Op.selectedBy_encode (i : Instr) : i.op.selectedBy (encode i) = true := by
  rw [Op.selectedBy_iff, encode, opField_commandWord, rsvField_commandWord, vField_commandWord, aField_commandWord]
  exact ⟨rfl, rfl, i.vOperand_eq_zero, i.aOperand_eq_zero⟩

theorem Op.instr_encode (i : Instr) : i.op.instr (encode i) = i := by
  cases i <;> simp [Instr.op, Op.instr, encode, Instr.vOperand, Instr.aOperand]

@[simp] theorem Op.op_instr (o : Op) (c : Word) : (o.instr c).op = o := by
  cases o <;> rfl

theorem Op.vOperand_instr (o : Op) (c : Word) : (o.instr c).vOperand = if o.usesV then vField c else 0 := by
  cases o <;> rfl

theorem Op.aOperand_instr (o : Op) (c : Word) : (o.instr c).aOperand = if o.usesA then aField c else 0 := by
  cases o <;> rfl

/-- A word that a row selects is the encoding of the row's command. -/
theorem Op.encode_instr {o : Op} {c : Word} (h : o.selectedBy c = true) : encode (o.instr c) = c := by
  obtain ⟨hcode, hrsv, hv, ha⟩ := (Op.selectedBy_iff o c).mp h
  refine ((eq_commandWord_iff c _ _ _).mpr ⟨by simp [hcode], hrsv, ?_, ?_⟩).symm
  · rw [Op.vOperand_instr]
    split
    · rfl
    · exact hv (Bool.eq_false_iff.mpr ‹_›)
  · rw [Op.aOperand_instr]
    split
    · rfl
    · exact ha (Bool.eq_false_iff.mpr ‹_›)

end Sys2Proof
end

section
/-! PROOFS. The statements of spec/30_encoding.md: the two round trips, the legal and the illegal words, and what the
response of a command carries. -/

namespace Sys2Proof.Machine

/-! ## The two round trips -/

/-- Settles O1: the row of the command selects its encoding and reads its operands back. -/
theorem decodeEncodeRoundTrip : Obligations.DecodeEncodeRoundTrip := fun i =>
  (decode_eq_ok_iff _ _).mpr ⟨i.op, Op.selectedBy_encode i, Op.instr_encode i⟩

/-- Settles O2: the row that selects the word fixes its opcode, its `rsv` and its unused fields, and the command
holds the others. -/
theorem encodeDecodeRoundTrip : Obligations.EncodeDecodeRoundTrip := by
  intro c i h
  obtain ⟨o, ho, rfl⟩ := (decode_eq_ok_iff c i).mp h
  exact Op.encode_instr ho

/-- Settles O3: the rows have different opcodes. -/
theorem opcodeRowsDoNotOverlap : Obligations.OpcodeRowsDoNotOverlap := fun _ _ _ =>
  Op.eq_of_selectedBy

/-- Settles O4: each legal word is the encoding of the command the table names (O1); the illegal ones are run. -/
theorem sampleWordsDecode : Obligations.SampleWordsDecode :=
  ⟨decodeEncodeRoundTrip (.get 3), decodeEncodeRoundTrip (.set 10 0x2A), decodeEncodeRoundTrip (.set 0 0xFF),
    decodeEncodeRoundTrip (.add 0xDEADBEEF), decodeEncodeRoundTrip .estimate, decodeEncodeRoundTrip .reset,
    decodeEncodeRoundTrip .rdb, decodeEncodeRoundTrip .rdm, decodeEncodeRoundTrip .rdfoot, fun c hc => by
      fin_cases hc <;> rfl⟩

/-! ## The step on a command word -/

theorem take_of_inputs_cons {s : State} {input : HostInput} {rest : List HostInput}
    (h : s.inputs = input :: rest) : s.take = { s with inputs := rest } := by
  rw [State.take, h, List.tail_cons]

/-- Settles O5, by the inversions of the step on a word and of `execWord`. -/
theorem stepRunsDecodedCommand : Obligations.StepRunsDecodedCommand := by
  intro s c rest i hin hdecode
  rw [step_command s c rest hin, execWord_of_decode_ok hdecode, take_of_inputs_cons hin]

theorem execWord_of_not_decode_ok {c : Word} (h : ∀ i, decode c ≠ .ok i) (s : State) :
    execWord c s = .next (s.raise .illegalCommand) := by
  cases hc : decode c with
  | ok i => exact absurd hc (h i)
  | error e => exact execWord_of_decode_error hc s

/-- Settles O6: the illegal words are those no row selects (`exists_selectedBy_iff`), and the step raises the error on
the state with the word taken. -/
theorem illegalWordsAreAnswered : Obligations.IllegalWordsAreAnswered := by
  intro s c rest hin
  constructor
  · rw [← not_exists, exists_decode_eq_ok_iff, exists_selectedBy_iff]
    tauto
  · intro hillegal
    rw [step_command s c rest hin, execWord_of_not_decode_ok hillegal, take_of_inputs_cons hin]
    rfl

/-! ## The responses of `GET` and `ESTIMATE` -/

theorem exec_get_of_lt {i : U32} {s : State} (h : i.toNat < s.B.m) :
    exec (.get i) s = .next (s.respond ((s.reg i.toNat).setWidth 64)) :=
  if_pos ((indexInRange_iff _ _).mpr h)

/-- Settles O21: the response is the register's, and a register is bounded in every state (`State.reg_lt`). -/
theorem getAnswersRegister : Obligations.GetAnswersRegister := fun i s h =>
  ⟨exec_get_of_lt h, Nat.le_sub_one_of_lt (State.reg_lt s i.toNat)⟩

/-- Settles O37: `State.registers` is the list of the statement by definition. -/
theorem estimateAnswersFromRegisters : Obligations.EstimateAnswersFromRegisters := fun _ => rfl

/-! ## `INJECT` -/

/-- A `SET` of an index given as a number below `m`, which the 32-bit operand holds. -/
theorem exec_set_ofNat {i : Nat} {s : State} (h : i < s.B.m) (v : Byte) :
    exec (.set (BitVec.ofNat 32 i) v) s = .next ((s.setReg i v).respond 0) := by
  have hi : (BitVec.ofNat 32 i).toNat = i :=
    Nat.mod_eq_of_lt (Nat.lt_of_lt_of_le h (Precision.m_le s.B))
  rw [exec_set_of_lt (by rwa [hi]), hi]

/-- `INJECT` from index `i` on, by induction on the values: its registers hold the masked values in order, and those
below `i` are as they were, so that the `SET`s still to come leave the ones already made. -/
theorem execAll_injectFrom (r : List Byte) : ∀ (i : Nat) (s : State), i + r.length ≤ s.B.m →
    ∃ t, execAll (injectFrom i r) s = .next t ∧ t.B = s.B ∧ t.variant = s.variant ∧
      (∀ j, j < i → t.reg j = s.reg j) ∧
      (List.range' i r.length).map t.reg = r.map (maskValue s.variant) := by
  induction r with
  | nil => exact fun i s _ => ⟨s, rfl, rfl, rfl, fun _ _ => rfl, rfl⟩
  | cons v rest ih =>
    intro i s hlen
    rw [List.length_cons] at hlen
    obtain ⟨t, hall, hB, hvariant, hbelow, hregs⟩ := ih (i + 1) ((s.setReg i v).respond 0) (by simp; omega)
    rw [State.variant_respond, State.variant_setReg] at hvariant hregs
    have hreg (j : Nat) (hj : j < i + 1) : t.reg j = if j = i then maskValue s.variant v else s.reg j := by
      rw [hbelow j hj, State.reg_respond, State.reg_setReg]
    refine ⟨t, (execAll_cons_of_next (exec_set_ofNat (by omega) v) _).trans hall, hB, hvariant, fun j hj => ?_, ?_⟩
    · rw [hreg j (by omega), if_neg (by omega)]
    · rw [List.length_cons, List.range'_succ, List.map_cons, List.map_cons, hregs, hreg i (by omega), if_pos rfl]

/-- Settles O26, from index 0 (`execAll_injectFrom`). -/
theorem injectLoadsEveryRegister : Obligations.InjectLoadsEveryRegister := by
  intro r s hlen
  obtain ⟨t, hall, hB, hvariant, -, hregs⟩ := execAll_injectFrom r 0 s (by omega)
  refine ⟨t, hall, hB, hvariant, ?_⟩
  rwa [State.registers, hB, ← hlen, List.range_eq_range']

end Sys2Proof.Machine
end

section
/-! PROOFS. The statements of spec/40_register_array.md: the storage as a function of the register view, and what
`SET` leaves in the storage, in its own register and in the others. -/

namespace Sys2Proof.Machine

/-! ## The storage from the register view -/

theorem Variant.bitsPerRegister_pos (var : Variant) : 0 < var.bitsPerRegister := by
  cases var <;> decide

/-- The layout read from the storage's side: a stream position lies in one register, at one of its bits. -/
theorem Storage.bit_eq_getLsbD_get (st : Storage) (p : Nat) :
    st.bit p = (st.get (p / st.variant.bitsPerRegister)).getLsbD (p % st.variant.bitsPerRegister) := by
  have hk : p % st.variant.bitsPerRegister < st.variant.bitsPerRegister :=
    Nat.mod_lt _ (Variant.bitsPerRegister_pos _)
  rw [Storage.getLsbD_get, decide_eq_true hk, Bool.true_and, Nat.div_add_mod]

/-- Settles O18: below `m * bitsPerRegister` every bit is a register's, from there on every bit of a storage that
fits is 0 (`Storage.wf_iff`), and the bits determine a canonical storage. -/
theorem storageDeterminedByRegisters : Obligations.StorageDeterminedByRegisters := by
  intro s t hs ht hB hv hreg
  obtain ⟨hcanon, hpad⟩ := (Storage.wf_iff s.B s.storage).mp hs
  obtain ⟨hcanon', hpad'⟩ := (Storage.wf_iff t.B t.storage).mp ht
  have hv : s.storage.variant = t.storage.variant := hv
  rw [← hB, ← hv] at hpad'
  refine Storage.ext_of_bit hcanon hcanon' hv fun p => ?_
  by_cases hp : p < s.storage.variant.bitsPerRegister * s.B.m
  · have hview : s.storage.get (p / s.storage.variant.bitsPerRegister) =
        t.storage.get (p / s.storage.variant.bitsPerRegister) := hreg _ (Nat.div_lt_of_lt_mul hp)
    rw [Storage.bit_eq_getLsbD_get, Storage.bit_eq_getLsbD_get, ← hv, hview]
  · rw [hpad p (Nat.le_of_not_lt hp), hpad' p (Nat.le_of_not_lt hp)]

/-! ## `SET` -/

/-- Settles O22: in range, `SET` is a store and a response (`exec_set_of_lt`), and the store writes its field alone
(`Storage.bit_set`). -/
theorem setWritesOnlyItsField : Obligations.SetWritesOnlyItsField := fun i v s hi =>
  ⟨_, exec_set_of_lt hi v, rfl, State.variant_setReg s _ v, rfl, rfl, Storage.bit_set s.storage i.toNat v⟩

/-- Settles O23: `GET` responds with the register as `SET` left it, which is the masked value
(`State.reg_setReg`). -/
theorem setThenGetRoundTrip : Obligations.SetThenGetRoundTrip := by
  intro i v s hi
  have hget : exec (.get i) ((s.setReg i.toNat v).respond 0) =
      .next (((s.setReg i.toNat v).respond 0).respond ((maskValue s.variant v).setWidth 64)) := by
    rw [exec_get_of_lt (by exact hi), State.reg_respond, State.reg_setReg, if_pos rfl]
  refine ⟨_, (execAll_cons_of_next (exec_set_of_lt hi v) _).trans (execAll_cons_of_next hget []), ?_⟩
  simp [Response.okay, maskValue]

/-- Settles O24: the stored field holds no bit of another register (`State.reg_setReg`). -/
theorem setLeavesOtherRegisters : Obligations.SetLeavesOtherRegisters := fun i v s hi =>
  ⟨_, exec_set_of_lt hi v, fun j hj => by rw [State.reg_respond, State.reg_setReg, if_neg hj]⟩

end Sys2Proof.Machine
end

section
/-! PROOFS. The statements of spec/41_add.md: the digest split into bucket and tail, the leading-zero count, the rank,
and what one `ADD` and a sequence of `ADD`s leave in the registers. -/

namespace Sys2Proof.Machine

/-! ## The digest split into bucket and tail -/

theorem two_pow_maxBits_mul (B : Precision) : 2 ^ B.maxBits * 2 ^ B.val = 2 ^ 32 := by
  rw [Nat.mul_comm]
  exact Precision.m_mul B

/-- The tail is the low `maxBits` bits of the digest, moved up by `B` (R132). -/
theorem toNat_tailOf (B : Precision) (d : U32) :
    (tailOf B d).toNat = d.toNat % 2 ^ B.maxBits * 2 ^ B.val := by
  rw [tailOf, BitVec.toNat_shiftLeft, Nat.shiftLeft_eq, ← two_pow_maxBits_mul B, Nat.mul_mod_mul_right]

theorem tailOf_eq_zero_iff (B : Precision) (d : U32) : tailOf B d = 0 ↔ d.toNat % 2 ^ B.maxBits = 0 := by
  rw [← BitVec.toNat_inj, toNat_tailOf]
  simp

/-- Settles O27: bucket and tail are quotient and remainder of the digest by `2^maxBits`. -/
theorem demultiplexerLosesNoBit : Obligations.DemultiplexerLosesNoBit := by
  intro B d
  refine ⟨bucket_lt B d, ?_, ?_⟩
  · rw [bucket_eq, toNat_tailOf, Nat.mul_div_cancel _ (Nat.two_pow_pos _), Nat.div_add_mod']
  · rw [toNat_tailOf, Nat.mul_mod_left]

/-! ## The leading-zero count -/

theorem toNat_clz_le (tail : U32) : tail.clz.toNat ≤ 32 := BitVec.clz_le

theorem clz_zero : (0 : U32).clz.toNat = 32 :=
  congrArg BitVec.toNat (BitVec.clz_eq_iff_eq_zero.mpr rfl)

theorem getLsbD_of_lt_clz {tail : U32} {k : Nat} (h : k < tail.clz.toNat) : tail.getLsbD (31 - k) = false := by
  have hle := toNat_clz_le tail
  refine Nat.testBit_lt_two_pow (Nat.lt_of_lt_of_le BitVec.toNat_lt_two_pow_sub_clz ?_)
  exact Nat.pow_le_pow_right Nat.two_pos (by omega)

theorem getLsbD_clz {tail : U32} (h : tail.clz.toNat < 32) : tail.getLsbD (31 - tail.clz.toNat) = true := by
  refine BitVec.getLsbD_true_clz_of_ne_zero (by decide) ?_
  rintro rfl
  exact absurd clz_zero h.ne

/-- The scan from bit `31 - k` on, by induction on the bits left to examine: it stops at the first one bit, which is
where the 32-bit count stops, or when no bit is left. -/
theorem lzFrom_eq_min (tail : U32) (n k : Nat) (hk : k ≤ tail.clz.toNat) (hn : k + n ≤ 32) :
    lzFrom tail n k = min tail.clz.toNat (k + n) := by
  induction n generalizing k with
  | zero => exact (Nat.min_eq_right hk).symm
  | succ n ih =>
    rw [lzFrom]
    split
    · next hone =>
      have hstop : ¬ k < tail.clz.toNat := fun hlt => by simp [getLsbD_of_lt_clz hlt] at hone
      omega
    · next hbit =>
      have hne : k ≠ tail.clz.toNat := fun heq => hbit (heq ▸ getLsbD_clz (by omega))
      rw [ih (k + 1) (by omega) (by omega), Nat.add_right_comm, Nat.add_assoc]

theorem lzTop_eq_min (B : Precision) (tail : U32) : lzTop B tail = min tail.clz.toNat B.maxBits := by
  rw [lzTop, lzFrom_eq_min tail B.maxBits 0 (Nat.zero_le _) (by rw [Precision.maxBits]; omega), Nat.zero_add]

/-- The 32-bit count of a word that is not 0 is given by the place of its highest one bit. -/
theorem clz_add_log2 {tail : U32} (h : tail ≠ 0) : tail.clz.toNat + tail.toNat.log2 = 31 := by
  have hlt : tail.clz.toNat < 32 := BitVec.clz_lt_iff_ne_zero.mpr h
  have hpos : tail.toNat ≠ 0 := (BitVec.toNat_pos_of_ne_zero h).ne'
  have hlog : tail.toNat.log2 = 31 - tail.clz.toNat := by
    refine (Nat.log2_eq_iff hpos).mpr ⟨BitVec.two_pow_sub_clz_le_toNat_of_ne_zero (by decide) h, ?_⟩
    rw [show 31 - tail.clz.toNat + 1 = 32 - tail.clz.toNat by omega]
    exact BitVec.toNat_lt_two_pow_sub_clz
  omega

theorem log2_mul_two_pow {x : Nat} (h : x ≠ 0) (k : Nat) : (x * 2 ^ k).log2 = x.log2 + k := by
  obtain ⟨hle, hlt⟩ := (Nat.log2_eq_iff h).mp rfl
  have hpow := Nat.two_pow_pos k
  refine (Nat.log2_eq_iff (Nat.mul_ne_zero h hpow.ne')).mpr ⟨?_, ?_⟩
  · rw [Nat.pow_add]
    exact Nat.mul_le_mul_right _ hle
  · rw [Nat.add_right_comm, Nat.pow_add]
    exact Nat.mul_lt_mul_of_pos_right hlt hpow

/-- The tail's highest one bit is the low part's, moved up by `B`. -/
theorem log2_tailOf {B : Precision} {d : U32} (h : d.toNat % 2 ^ B.maxBits ≠ 0) :
    (tailOf B d).toNat.log2 = (d.toNat % 2 ^ B.maxBits).log2 + B.val := by
  rw [toNat_tailOf, log2_mul_two_pow h]

/-- The 32-bit count of a digest's tail that is not 0 (R133): it stays below `maxBits`. -/
theorem clz_tailOf_add_log2 {B : Precision} {d : U32} (h : d.toNat % 2 ^ B.maxBits ≠ 0) :
    (tailOf B d).clz.toNat + (d.toNat % 2 ^ B.maxBits).log2 + 1 = B.maxBits := by
  have hsum := clz_add_log2 (mt (tailOf_eq_zero_iff B d).mp h)
  have hbits : B.maxBits = 32 - B.val := rfl
  rw [log2_tailOf h] at hsum
  omega

/-- Settles O28: the scan is the capped count (`lzFrom_eq_min`); the cap acts on a digest's tail only if the tail
is 0. -/
theorem leadingZeroCountSaturates : Obligations.LeadingZeroCountSaturates := by
  refine ⟨lzTop_eq_min, fun B d => ?_⟩
  rw [lzTop_eq_min]
  split
  · next hzero =>
    rw [hzero, clz_zero]
    exact Nat.min_eq_right (Nat.sub_le 32 _)
  · next hne =>
    have hcount := clz_tailOf_add_log2 (mt (tailOf_eq_zero_iff B d).mpr hne)
    exact Nat.min_eq_left (by omega)

/-! ## The rank -/

theorem rankOfDigest_of_low_eq_zero {B : Precision} {d : U32} (h : d.toNat % 2 ^ B.maxBits = 0) :
    rankOfDigest B d = B.maxBits + 1 := by
  obtain ⟨-, hcount⟩ := leadingZeroCountSaturates
  rw [rankOfDigest, rankOf, hcount, if_pos ((tailOf_eq_zero_iff B d).mpr h)]

/-- The rank is the place of the highest one bit among the low `maxBits` bits, counted from the top. -/
theorem rankOfDigest_add_log2 {B : Precision} {d : U32} (h : d.toNat % 2 ^ B.maxBits ≠ 0) :
    rankOfDigest B d + (d.toNat % 2 ^ B.maxBits).log2 = B.maxBits := by
  obtain ⟨-, hcount⟩ := leadingZeroCountSaturates
  rw [rankOfDigest, rankOf, hcount, if_neg (mt (tailOf_eq_zero_iff B d).mp h), Nat.add_right_comm]
  exact clz_tailOf_add_log2 h

theorem rankOfDigest_pos (B : Precision) (d : U32) : 1 ≤ rankOfDigest B d := Nat.le_add_left _ _

theorem rankOfDigest_eq_max_iff (B : Precision) (d : U32) :
    rankOfDigest B d = B.maxBits + 1 ↔ d.toNat % 2 ^ B.maxBits = 0 := by
  refine ⟨fun hmax => ?_, rankOfDigest_of_low_eq_zero⟩
  by_contra hne
  have := rankOfDigest_add_log2 hne
  omega

/-- A rank below the largest says between which powers of two the low `maxBits` bits lie. -/
theorem rankOfDigest_eq_iff {B : Precision} (d : U32) {r : Nat} (hr : r ≤ B.maxBits) :
    rankOfDigest B d = r ↔
      2 ^ (B.maxBits - r) ≤ d.toNat % 2 ^ B.maxBits ∧
      d.toNat % 2 ^ B.maxBits < 2 ^ (B.maxBits - r + 1) := by
  by_cases hlow : d.toNat % 2 ^ B.maxBits = 0
  · have hpow := Nat.two_pow_pos (B.maxBits - r)
    rw [rankOfDigest_of_low_eq_zero hlow, hlow]
    omega
  · have hrank := rankOfDigest_add_log2 hlow
    rw [← Nat.log2_eq_iff hlow]
    omega

theorem maxBits_add_one (B : Precision) : B.maxBits + 1 = 33 - B.val := by
  rw [Precision.maxBits]
  omega

/-- Settles O29: the two cases of the low bits, all 0 (`rankOfDigest_eq_max_iff`) or with a highest one bit
(`rankOfDigest_eq_iff`). -/
theorem rankRange : Obligations.RankRange := by
  refine ⟨fun B d => ?_, rankOfDigest_le_33, rankOfDigest_of_low_eq_zero rfl⟩
  rw [← maxBits_add_one]
  exact ⟨rankOfDigest_pos B d, rankOfDigest_le B d, rankOfDigest_eq_max_iff B d,
    fun _ _ hr => rankOfDigest_eq_iff d hr⟩

/-! ## One `ADD` -/

theorem reg_bucket_of_add {d : U32} {s t : State} (h : exec (.add d) s = .next t) :
    (t.reg (bucket s.B d)).toNat = max (s.reg (bucket s.B d)).toNat (rankOfDigest s.B d) := by
  rw [reg_of_add h, if_pos rfl]

theorem reg_of_add_of_ne {d : U32} {s t : State} (h : exec (.add d) s = .next t) {j : Nat}
    (hj : j ≠ bucket s.B d) : t.reg j = s.reg j :=
  BitVec.eq_of_toNat_eq (by rw [reg_of_add h, if_neg hj])

/-- Settles O30: `ADD` is a store into the bucket's register and a response, the value is `reg_of_add`'s, and the store
writes its field alone (`Storage.bit_set`). -/
theorem addMaxUpdatesOneRegister : Obligations.AddMaxUpdatesOneRegister := fun _ s =>
  ⟨_, rfl, rfl, State.variant_setReg s _ _, rfl, rfl, reg_bucket_of_add rfl, fun _ hj => reg_of_add_of_ne rfl hj,
    fun p hp => (Storage.bit_set s.storage _ _ p).trans (if_neg (by rw [State.variant] at hp; omega))⟩

/-- Settles O33: the bucket's register is a maximum with its old value and with a rank, which is at least 1. -/
theorem addIsMonotone : Obligations.AddIsMonotone := by
  intro d s
  obtain ⟨t, hexec, -, -, -, -, hbucket, hother, -⟩ := addMaxUpdatesOneRegister d s
  refine ⟨t, hexec, fun i _ => ⟨?_, hother i⟩, fun hzero => ?_⟩
  · by_cases hi : i = bucket s.B d
    · rw [hi, hbucket]
      exact Nat.le_max_left _ _
    · rw [hother i hi]
  · have hpos := rankOfDigest_pos s.B d
    simp only [hzero, BitVec.ofNat_eq_ofNat, BitVec.toNat_zero] at hbucket
    omega

/-- Settles O31: the second maximum with the same rank changes no register, and the registers determine a storage that
fits (O18). -/
theorem addIsIdempotent : Obligations.AddIsIdempotent := by
  intro d s
  obtain ⟨t, hexec, hB, hv, -⟩ := addMaxUpdatesOneRegister d s
  obtain ⟨u, hexec', hB', hv', -⟩ := addMaxUpdatesOneRegister d t
  have hreg (i : Nat) : u.reg i = t.reg i := by
    apply BitVec.eq_of_toNat_eq
    rw [reg_of_add hexec', reg_of_add hexec, hB]
    split
    · rw [Nat.max_assoc, Nat.max_self]
    · rfl
  refine ⟨t, u, hexec, hexec', hreg, fun hwf => ?_⟩
  have htwf := exec_keeps_wf (.add d) hwf hexec
  have huwf := exec_keeps_wf (.add d) htwf hexec'
  exact storageDeterminedByRegisters u t huwf htwf hB' hv' fun i _ => hreg i

/-! ## A sequence of `ADD`s -/

/-- The largest rank among the digests that fall in bucket `i`, 0 where there are none (R138). -/
def maxRank (B : Precision) (ds : List U32) (i : Nat) : Nat :=
  ((ds.filter (fun d => bucket B d == i)).map (fun d => rankOfDigest B d)).foldr max 0

@[simp] theorem maxRank_nil (B : Precision) (i : Nat) : maxRank B [] i = 0 := rfl

theorem maxRank_cons (B : Precision) (d : U32) (ds : List U32) (i : Nat) :
    maxRank B (d :: ds) i =
      if i = bucket B d then max (rankOfDigest B d) (maxRank B ds i) else maxRank B ds i := by
  by_cases hi : i = bucket B d
  · simp [maxRank, hi]
  · simp [maxRank, hi, Ne.symm hi]

theorem maxRank_of_perm (B : Precision) {ds ds' : List U32} (h : ds.Perm ds') (i : Nat) :
    maxRank B ds i = maxRank B ds' i :=
  ((h.filter _).map _).foldr_eq 0

/-- `ADD`s change the storage and append one `OK` each, and every register ends as the maximum of its start value and
the ranks in its bucket (R138); by induction on the digests, each `ADD` a step of the maximum. -/
theorem execAll_add (ds : List U32) : ∀ s : State, ∃ st,
    execAll (ds.map .add) s =
      .next { s with storage := st, responses := s.responses ++ List.replicate ds.length (.okay 0) } ∧
    st.variant = s.variant ∧ (s.wf = true → st.wf s.B = true) ∧
    ∀ i, (st.get i).toNat = max (s.reg i).toNat (maxRank s.B ds i) := by
  induction ds with
  | nil => exact fun s => ⟨s.storage, by simp [execAll], rfl, id, fun i => (Nat.max_zero _).symm⟩
  | cons d ds ih =>
    intro s
    obtain ⟨t, hexec, hB, hv, hin, hresp, -⟩ := addMaxUpdatesOneRegister d s
    obtain ⟨st, hall, hvariant, hwf, hreg⟩ := ih t
    rw [hB] at hwf hreg
    refine ⟨st, ?_, hvariant.trans hv, fun h => hwf (exec_keeps_wf (.add d) h hexec), fun i => ?_⟩
    · rw [List.map_cons, execAll_cons_of_next hexec, hall, hB, hin, hresp, List.append_assoc]
      rfl
    · rw [hreg, reg_of_add hexec, maxRank_cons]
      split
      · rw [Nat.max_assoc]
      · rfl

/-- Settles O32: the formula for the registers (`execAll_add`) does not depend on the order (`maxRank_of_perm`), and
the registers determine a storage that fits (O18). -/
theorem addsFoldToMaximumInAnyOrder : Obligations.AddsFoldToMaximumInAnyOrder := by
  constructor
  · intro ds ds' s hs hperm
    obtain ⟨st, hall, hv, hwf, hreg⟩ := execAll_add ds s
    obtain ⟨st', hall', hv', hwf', hreg'⟩ := execAll_add ds' s
    have hstorage : st = st' :=
      storageDeterminedByRegisters { s with storage := st } { s with storage := st' } (hwf hs) (hwf' hs) rfl
        (hv.trans hv'.symm) fun i _ => BitVec.eq_of_toNat_eq <|
          (hreg i).trans (by rw [maxRank_of_perm s.B hperm, ← hreg']; rfl)
    rw [← hstorage, ← hperm.length_eq] at hall'
    exact ⟨_, hall, hall'⟩
  · intro ds s
    obtain ⟨st, hall, -, -, hreg⟩ := execAll_add ds s
    exact ⟨_, hall, fun i _ => hreg i⟩

end Sys2Proof.Machine
end

section
/-! PROOFS. The statements of spec/42_estimate.md on the response of `ESTIMATE`: what the open evaluation may be, and
that it sees the register values alone. -/

namespace Sys2Proof.Machine

/-! ## The constrained evaluation -/

theorem f64Admissible_iff (e : Word) :
    f64Admissible e = true ↔
      e.extractLsb' 52 11 ≠ 0x7FF ∧ (e.getLsbD 63 = true → e.extractLsb' 0 63 = 0) := by
  simp [f64Admissible, imp_iff_not_or]

theorem f64Constrain_of_empty (raw : Precision → List Byte → Word) (B : Precision) {r : List Byte}
    (h : ∀ x ∈ r, x = 0) : f64Constrain raw B r = 0 :=
  if_pos (by simpa using h)

theorem f64Constrain_of_not_empty (raw : Precision → List Byte → Word) (B : Precision) {r : List Byte}
    (h : ¬ ∀ x ∈ r, x = 0) :
    f64Constrain raw B r = if f64Admissible (raw B r) then raw B r else 0 :=
  if_neg (by simpa using h)

/-- Whatever the raw evaluation is, its constrained form has F2 and F3. -/
theorem admissible_f64Constrain (raw : Precision → List Byte → Word) : Admissible (f64Constrain raw) where
  empty B _ h := f64Constrain_of_empty raw B h
  finite B r := by
    by_cases h : ∀ x ∈ r, x = 0
    · rw [f64Constrain_of_empty raw B h]
      decide
    · rw [f64Constrain_of_not_empty raw B h]
      split
      · assumption
      · decide

theorem f64Constrain_of_admissible {F : Precision → List Byte → Word} (hF : Admissible F) : f64Constrain F = F := by
  funext B r
  by_cases h : ∀ x ∈ r, x = 0
  · rw [f64Constrain_of_empty F B h, hF.empty B r h]
  · rw [f64Constrain_of_not_empty F B h, if_pos (hF.finite B r)]

theorem admissible_f64Eval : Admissible f64Eval := admissible_f64Constrain Config.f64Raw

/-- Settles O42: an evaluation with F3 passes the admissibility test everywhere, and one with F2 is 0 where the
constraint makes it 0. -/
theorem estimateAdmitsEveryEvaluation : Obligations.EstimateAdmitsEveryEvaluation :=
  ⟨fun _ => f64Constrain_of_admissible, admissible_f64Constrain⟩

/-! ## The response of `ESTIMATE` -/

theorem exec_estimate (s : State) : exec .estimate s = .next (s.respond (f64Eval s.B s.registers)) := rfl

/-- Settles O38: the datum is a function of `B` and the register list, which the common view fixes. -/
theorem estimateDependsOnRegistersOnly : Obligations.EstimateDependsOnRegistersOnly := by
  intro s t h
  have hregs := registers_eq_of_sameView h
  obtain ⟨hB, -⟩ := h
  have hdatum : f64Eval t.B t.registers = f64Eval s.B s.registers := by rw [hB, hregs]
  exact ⟨_, _, f64Eval s.B s.registers, exec_estimate s, exec_estimate t, rfl, by rw [hdatum]; rfl⟩

/-- Settles O41: the evaluation has F3 on every register list. -/
theorem estimateIsFiniteNonNegative : Obligations.EstimateIsFiniteNonNegative := fun s =>
  ⟨_, _, exec_estimate s, rfl, (f64Admissible_iff _).mp (admissible_f64Eval.finite s.B s.registers)⟩

theorem registers_of_emptySketch {s : State} (h : EmptySketch s) : ∀ x ∈ s.registers, x = 0 := by
  intro x hx
  obtain ⟨i, hi, rfl⟩ := List.mem_map.mp hx
  exact h i (List.mem_range.mp hi)

/-- Settles O40: the evaluation has F2. -/
theorem emptySketchEstimatesZero : Obligations.EmptySketchEstimatesZero := by
  intro s h
  rw [exec_estimate, admissible_f64Eval.empty s.B _ (registers_of_emptySketch h)]
  rfl

/-! ## The registers read with `GET` -/

/-- A `GET` of an index given as a number below `m`, which the 32-bit operand holds. -/
theorem exec_get_ofNat {i : Nat} {s : State} (h : i < s.B.m) :
    exec (.get (BitVec.ofNat 32 i)) s = .next (s.respond ((s.reg i).setWidth 64)) := by
  have hi : (BitVec.ofNat 32 i).toNat = i :=
    Nat.mod_eq_of_lt (Nat.lt_of_lt_of_le h (Precision.m_le s.B))
  rw [exec_get_of_lt (by rwa [hi]), hi]

/-- `GET`s in range append the registers' responses in order; by induction on the indices, since a `GET` leaves the
registers as they are. -/
theorem execAll_get (is : List Nat) : ∀ s : State, (∀ i ∈ is, i < s.B.m) →
    ∃ t, execAll (is.map fun i => .get (BitVec.ofNat 32 i)) s = .next t ∧
      t.responses = s.responses ++ is.map fun i => .okay ((s.reg i).setWidth 64) := by
  induction is with
  | nil => exact fun s _ => ⟨s, rfl, by simp⟩
  | cons i is ih =>
    intro s hlt
    obtain ⟨t, hall, hresp⟩ :=
      ih (s.respond ((s.reg i).setWidth 64)) fun j hj => hlt j (List.mem_cons_of_mem _ hj)
    exact ⟨t, (execAll_cons_of_next (exec_get_ofNat (hlt i List.mem_cons_self)) _).trans hall, by simp [hresp]⟩

/-- Settles O39: the `GET`s are answered with the registers in index order (`execAll_get`), and an 8-bit value comes
back from its 64-bit datum. -/
theorem estimateFromGetResponses : Obligations.EstimateFromGetResponses := by
  intro s
  obtain ⟨t, hall, hresp⟩ := execAll_get (List.range s.B.m) s fun i hi => List.mem_range.mp hi
  have hdata : ((List.range s.B.m).map fun i => Response.okay ((s.reg i).setWidth 64)).map
      (fun r => r.data.setWidth 8) = s.registers := by
    simp [State.registers, Response.okay, Function.comp_def]
  refine ⟨t, _, _, hall, hresp, fun r hr => ?_, exec_estimate s, by rw [hdata]; rfl⟩
  obtain ⟨i, -, rfl⟩ := List.mem_map.mp hr
  rfl

end Sys2Proof.Machine
end

section
/-! PROOFS. The statements of spec/42_estimate.md on the exact estimate: the bounds of the sum and of the raw estimate,
the branches, and when the estimate is 0. -/

namespace Sys2Proof.Machine

/-! ## The sum and the raw estimate -/

theorem alpha_pos (m : Nat) : 0 < alpha m := by
  unfold alpha
  split_ifs <;> positivity

theorem alpha_lt {m : Nat} (hm : 1 ≤ m) : alpha m < 7213 / 10000 := by
  have hm : (0 : ℚ) < m := by exact_mod_cast hm
  have hden : 1 < 1 + 1079 / 1000 / (m : ℚ) := lt_add_of_pos_right 1 (by positivity)
  unfold alpha
  split_ifs
  · norm_num
  · norm_num
  · norm_num
  · exact div_lt_self (by norm_num) hden

theorem cast_m_pos (B : Precision) : (0 : ℚ) < B.m := by exact_mod_cast Precision.m_pos B

theorem registerSum_le (r : List Byte) : registerSum r ≤ r.length := by
  have hterm : ∀ y ∈ r.map (fun x => (1 : ℚ) / 2 ^ x.toNat), y ≤ 1 := by
    intro y hy
    obtain ⟨x, -, rfl⟩ := List.mem_map.mp hy
    exact div_le_self zero_le_one (one_le_pow₀ one_le_two)
  simpa [registerSum] using List.sum_le_card_nsmul _ 1 hterm

theorem le_registerSum {r : List Byte} {k : Nat} (h : ∀ x ∈ r, x.toNat ≤ k) :
    (r.length : ℚ) / 2 ^ k ≤ registerSum r := by
  have hterm : ∀ y ∈ r.map (fun x => (1 : ℚ) / 2 ^ x.toNat), 1 / 2 ^ k ≤ y := by
    intro y hy
    obtain ⟨x, hx, rfl⟩ := List.mem_map.mp hy
    exact one_div_le_one_div_of_le (by positivity) (pow_le_pow_right₀ one_le_two (h x hx))
  simpa [registerSum, div_eq_mul_inv] using List.card_nsmul_le_sum _ _ hterm

theorem registerSum_pos {B : Precision} {r : List Byte} (hlen : r.length = B.m) : 0 < registerSum r := by
  have hle := le_registerSum fun x (_ : x ∈ r) => Nat.le_of_lt x.isLt
  rw [hlen] at hle
  exact lt_of_lt_of_le (div_pos (cast_m_pos B) (by positivity)) hle

theorem rawE_eq_div (B : Precision) (r : List Byte) : rawE B r = alpha B.m * B.m * B.m / registerSum r :=
  mul_one_div _ _

theorem rawE_pos {B : Precision} {r : List Byte} (hlen : r.length = B.m) : 0 < rawE B r := by
  have hm := cast_m_pos B
  have hsum := registerSum_pos hlen
  have halpha := alpha_pos B.m
  rw [rawE_eq_div]
  positivity

theorem le_rawE {B : Precision} {r : List Byte} (hlen : r.length = B.m) : alpha B.m * B.m ≤ rawE B r := by
  have hle := registerSum_le r
  rw [hlen] at hle
  rw [rawE_eq_div, le_div_iff₀ (registerSum_pos hlen)]
  exact mul_le_mul_of_nonneg_left hle (mul_pos (alpha_pos _) (cast_m_pos B)).le

theorem rawE_le {B : Precision} {r : List Byte} {k : Nat} (hlen : r.length = B.m) (h : ∀ x ∈ r, x.toNat ≤ k) :
    rawE B r ≤ alpha B.m * B.m * 2 ^ k := by
  have hle : (B.m : ℚ) ≤ 2 ^ k * registerSum r := by
    rw [← hlen, ← div_le_iff₀' (by positivity)]
    exact le_registerSum h
  rw [rawE_eq_div, div_le_iff₀ (registerSum_pos hlen), mul_assoc _ (2 ^ k)]
  exact mul_le_mul_of_nonneg_left hle (mul_pos (alpha_pos _) (cast_m_pos B)).le

/-- Settles O45: every term of the sum lies between `2^(-registerMax)` and 1, and `rawE` is antitone in the sum. -/
theorem rawEstimateBounds : Obligations.RawEstimateBounds :=
  ⟨fun m hm => ⟨alpha_pos m, alpha_lt hm⟩, fun _ r _ hlen hmax =>
    ⟨registerSum_pos hlen, hlen ▸ le_registerSum hmax, hlen ▸ registerSum_le r, le_rawE hlen, rawE_le hlen hmax⟩⟩

/-! ## The branches -/

theorem estBranch_of_smallRange {B : Precision} {r : List Byte} (h : smallRange B r) :
    estBranch B r = if 0 < zeroCount r then .lc else .smallRaw :=
  if_pos h

/-- Settles O46: both tests together need `2^32 / 30 < 2.5 * m`, which fails up to `m = 2^25`. -/
theorem branchOrderMattersFromPrecision26 : Obligations.BranchOrderMattersFromPrecision26 := by
  intro B r hsmall hlarge
  constructor
  · by_contra hB
    have hm : B.m ≤ 2 ^ 25 := Nat.pow_le_pow_right (by decide) (by omega)
    have hm : (B.m : ℚ) ≤ 2 ^ 25 := by exact_mod_cast hm
    have hbound : (2 : ℚ) ^ 32 / 30 < 5 / 2 * B.m := lt_of_lt_of_le hlarge hsmall
    linarith
  · rw [estBranch_of_smallRange hsmall]
    split
    · exact .inl rfl
    · exact .inr rfl

/-! ## When the estimate is 0 -/

theorem zeroCount_eq_length_iff (r : List Byte) : zeroCount r = r.length ↔ ∀ x ∈ r, x = 0 := by
  simp [zeroCount, List.countP_eq_length]

theorem registerSum_of_empty {r : List Byte} (h : ∀ x ∈ r, x = 0) : registerSum r = r.length := by
  refine le_antisymm (registerSum_le r) ?_
  simpa using le_registerSum (k := 0) fun x hx => by simp [h x hx]

/-- The empty sketch takes the linear-counting branch, since `alpha < 2.5`. -/
theorem estBranch_of_empty {B : Precision} {r : List Byte} (hlen : r.length = B.m) (h : ∀ x ∈ r, x = 0) :
    estBranch B r = .lc := by
  have hm := cast_m_pos B
  have hsmall : smallRange B r := by
    rw [smallRange, rawE_eq_div, registerSum_of_empty h, hlen, mul_div_cancel_right₀ _ hm.ne']
    have halpha := alpha_lt (Precision.m_pos B)
    exact mul_le_mul_of_nonneg_right (by linarith) hm.le
  rw [estBranch_of_smallRange hsmall, if_pos]
  rw [(zeroCount_eq_length_iff r).mpr h, hlen]
  exact Precision.m_pos B

theorem zeroCount_pos_of_lc {B : Precision} {r : List Byte} (h : estBranch B r = .lc) : 0 < zeroCount r := by
  unfold estBranch at h
  split_ifs at h
  assumption

/-- The large range without the clamp has `0 < rawE < 2^32`, so the argument of its logarithm is in `(0, 1)`. -/
theorem rawE_div_of_large {B : Precision} {r : List Byte} (h : estBranch B r = .large) :
    0 < rawE B r / 2 ^ 32 ∧ rawE B r / 2 ^ 32 < 1 := by
  unfold estBranch at h
  split_ifs at h with _ _ hlarge hclamp
  have hraw : 0 < rawE B r := lt_trans (by norm_num) hlarge
  exact ⟨by positivity, not_le.mp hclamp⟩

/-- Linear counting is `m ln(m / V)` with `V ≤ m`, which is 0 only at `V = m`. -/
theorem estReal_of_lc {B : Precision} {r : List Byte} (hlen : r.length = B.m) (h : estBranch B r = .lc) :
    0 ≤ estReal B r ∧ (estReal B r = 0 ↔ ∀ x ∈ r, x = 0) := by
  have hest : estReal B r = B.m * Real.log (B.m / zeroCount r) := by simp only [estReal, h]
  have hm : (0 : ℝ) < B.m := by exact_mod_cast Precision.m_pos B
  have hV : (0 : ℝ) < zeroCount r := by exact_mod_cast zeroCount_pos_of_lc h
  have hle : (zeroCount r : ℝ) ≤ B.m := by
    rw [← hlen]
    exact_mod_cast List.countP_le_length
  have hone : 1 ≤ (B.m : ℝ) / zeroCount r := (one_le_div hV).mpr hle
  constructor
  · rw [hest]
    exact mul_nonneg hm.le (Real.log_nonneg hone)
  · calc estReal B r = 0
        ↔ Real.log (B.m / zeroCount r) = 0 := by rw [hest, mul_eq_zero, or_iff_right hm.ne']
      _ ↔ (B.m : ℝ) / zeroCount r = 1 :=
        ⟨Real.eq_one_of_pos_of_log_eq_zero (by positivity), fun hquot => by rw [hquot, Real.log_one]⟩
      _ ↔ zeroCount r = r.length := by
        rw [div_eq_one_iff_eq hV.ne', hlen, eq_comm]
        exact Nat.cast_inj
      _ ↔ ∀ x ∈ r, x = 0 := zeroCount_eq_length_iff r

theorem estReal_pos_of_ne_lc {B : Precision} {r : List Byte} (hlen : r.length = B.m) (h : estBranch B r ≠ .lc) :
    0 < estReal B r := by
  have hraw : (0 : ℝ) < rawE B r := by exact_mod_cast rawE_pos hlen
  unfold estReal
  cases hbranch : estBranch B r with
  | lc => exact absurd hbranch h
  | smallRaw => exact hraw
  | raw => exact hraw
  | large =>
    obtain ⟨hpos, hlt⟩ := rawE_div_of_large hbranch
    have hpos : (0 : ℝ) < rawE B r / 2 ^ 32 := by exact_mod_cast hpos
    have hlt : (rawE B r : ℝ) / 2 ^ 32 < 1 := by exact_mod_cast hlt
    have hlog : Real.log (1 - rawE B r / 2 ^ 32) < 0 := Real.log_neg (by linarith) (by linarith)
    exact mul_pos_of_neg_of_neg (by norm_num) hlog
  | clamp => positivity

/-- Settles O47: linear counting is 0 at `V = m` alone, and every other branch is positive and is not taken by the
empty sketch. -/
theorem exactEstimateZeroOnlyWhenEmpty : Obligations.ExactEstimateZeroOnlyWhenEmpty := by
  intro B r hlen
  by_cases hbranch : estBranch B r = .lc
  · exact estReal_of_lc hlen hbranch
  · have hpos := estReal_pos_of_ne_lc hlen hbranch
    exact ⟨hpos.le, iff_of_false hpos.ne' fun hempty => hbranch (estBranch_of_empty hlen hempty)⟩

/-! ## The order of the registers -/

theorem registerSum_of_perm {r r' : List Byte} (h : r.Perm r') : registerSum r = registerSum r' :=
  (h.map _).sum_eq

/-- Settles O48: the registers enter by their sum and by the count of the zeros alone. -/
theorem exactEstimateIgnoresOrder : Obligations.ExactEstimateIgnoresOrder := by
  intro B r r' h
  have hraw : rawE B r = rawE B r' := by rw [rawE, rawE, registerSum_of_perm h]
  have hzero : zeroCount r = zeroCount r' := h.countP_eq _
  have hbranch : estBranch B r = estBranch B r' := by simp only [estBranch, smallRange, largeRange, hraw, hzero]
  rw [estReal, estReal, hbranch, hraw, hzero]

end Sys2Proof.Machine
end

section
/-! PROOFS. The statements of spec/42_estimate.md on the reference evaluation (R163): when rounding to 53 bits changes
nothing, the exact sum, and the empty sketch. -/

namespace Sys2Proof.Machine

/-! ## The exponent -/

theorem twoPow_eq (e : Int) : twoPow e = 2 ^ e := by
  unfold twoPow
  split
  · lift e to Nat using ‹0 ≤ e›
    simp
  · obtain ⟨n, rfl⟩ : ∃ n : Nat, e = -n := ⟨(-e).toNat, by omega⟩
    simp

/-- The quotient of the leading bits of numerator and denominator is within a factor 2 of the number. -/
theorem abs_between_log2 {x : ℚ} (hx : x ≠ 0) :
    (2 : ℚ) ^ ((x.num.natAbs.log2 : Int) - x.den.log2 - 1) < |x| ∧
      |x| < 2 ^ ((x.num.natAbs.log2 : Int) - x.den.log2 + 1) := by
  have hnum : x.num.natAbs ≠ 0 := by simpa using hx
  have hden : (0 : ℚ) < x.den := by exact_mod_cast x.den_pos
  have habs : |x| = x.num.natAbs / x.den := by
    conv_lhs => rw [← Rat.num_div_den x]
    rw [abs_div, abs_of_pos hden, Nat.cast_natAbs, Int.cast_abs]
  have hnum_le : (2 : ℚ) ^ x.num.natAbs.log2 ≤ x.num.natAbs := by exact_mod_cast Nat.log2_self_le hnum
  have hnum_lt : (x.num.natAbs : ℚ) < 2 ^ (x.num.natAbs.log2 + 1) := by exact_mod_cast Nat.lt_log2_self
  have hden_le : (2 : ℚ) ^ x.den.log2 ≤ x.den := by exact_mod_cast Nat.log2_self_le x.den_nz
  have hden_lt : (x.den : ℚ) < 2 ^ (x.den.log2 + 1) := by exact_mod_cast Nat.lt_log2_self
  rw [habs]
  constructor
  · calc (2 : ℚ) ^ ((x.num.natAbs.log2 : Int) - x.den.log2 - 1)
        = 2 ^ x.num.natAbs.log2 / 2 ^ (x.den.log2 + 1) := by
          rw [sub_sub, zpow_sub₀ two_ne_zero]; norm_cast
      _ < x.num.natAbs / x.den := div_lt_div₀' hnum_le hden_lt (hnum_le.trans_lt' (by positivity)) hden
  · calc (x.num.natAbs : ℚ) / x.den
        < 2 ^ (x.num.natAbs.log2 + 1) / 2 ^ x.den.log2 := div_lt_div₀ hnum_lt hden_le (by positivity) (by positivity)
      _ = 2 ^ ((x.num.natAbs.log2 : Int) - x.den.log2 + 1) := by
          rw [sub_add_eq_add_sub, zpow_sub₀ two_ne_zero]; norm_cast

/-- The exponent is the one of the leading bit. -/
theorem abs_between_exponent {x : ℚ} (hx : x ≠ 0) :
    (2 : ℚ) ^ exponent x ≤ |x| ∧ |x| < 2 ^ (exponent x + 1) := by
  obtain ⟨hlt, hgt⟩ := abs_between_log2 hx
  simp only [exponent, twoPow_eq]
  split
  · exact ⟨‹_›, hgt⟩
  · exact ⟨hlt.le, by rw [sub_add_cancel]; exact not_le.mp ‹_›⟩

theorem exponent_lt {x : ℚ} (hx : x ≠ 0) {k : Int} (h : |x| < 2 ^ k) : exponent x < k := by
  obtain ⟨hle, -⟩ := abs_between_exponent hx
  exact (zpow_lt_zpow_iff_right₀ one_lt_two).mp (hle.trans_lt h)

theorem exponent_le {x : ℚ} (hx : x ≠ 0) {k : Int} (h : |x| ≤ 2 ^ k) : exponent x ≤ k := by
  obtain ⟨hle, -⟩ := abs_between_exponent hx
  exact (zpow_le_zpow_iff_right₀ one_lt_two).mp (hle.trans h)

theorem le_exponent {x : ℚ} (hx : x ≠ 0) {k : Int} (h : 2 ^ k ≤ |x|) : k ≤ exponent x := by
  obtain ⟨-, hlt⟩ := abs_between_exponent hx
  exact Int.lt_add_one_iff.mp ((zpow_lt_zpow_iff_right₀ one_lt_two).mp (h.trans_lt hlt))

/-! ## Rounding -/

theorem nearestEven_le {x : ℚ} {n : Int} (h : x ≤ n) : nearestEven x ≤ n := by
  have hle : (x.floor : ℚ) ≤ x := Rat.le_floor_iff.mp le_rfl
  obtain hlt | hge := lt_or_ge x.floor n
  · simp only [nearestEven]
    split_ifs <;> omega
  · have hge : (n : ℚ) ≤ x.floor := by exact_mod_cast hge
    have hfloor : x - x.floor < 1 / 2 := by linarith
    rw [nearestEven, if_pos hfloor]
    exact_mod_cast hle.trans h

theorem le_nearestEven {x : ℚ} {n : Int} (h : n ≤ x) : n ≤ nearestEven x := by
  have hfloor : n ≤ x.floor := Rat.le_floor_iff.mpr h
  simp only [nearestEven]
  split_ifs <;> omega

/-- The unit in the last place of the 53-bit significand of `x`. -/
def ulp (x : ℚ) : ℚ := 2 ^ (exponent x - 52)

theorem ulp_pos (x : ℚ) : 0 < ulp x := by
  unfold ulp
  positivity

@[simp] theorem rne_zero : rne 0 = 0 := if_pos rfl

theorem rne_of_ne_zero {x : ℚ} (hx : x ≠ 0) : rne x = nearestEven (x / ulp x) * ulp x := by
  rw [rne, if_neg hx, twoPow_eq, ulp]

/-- `y` is a multiple of the unit in the last place of `x`. -/
def OnGrid (x y : ℚ) : Prop := ∃ n : Int, y = n * ulp x

theorem onGrid_of_exponent_le {x : ℚ} {k : Int} (N : Nat) (h : exponent x ≤ k + 52) : OnGrid x (N * 2 ^ k) := by
  obtain ⟨j, rfl⟩ : ∃ j : Nat, k = exponent x - 52 + j := ⟨(k + 52 - exponent x).toNat, by omega⟩
  refine ⟨N * 2 ^ j, ?_⟩
  rw [ulp, zpow_add₀ two_ne_zero, zpow_natCast]
  push_cast
  ring

theorem onGrid_two_pow {x : ℚ} {k : Int} (h : exponent x ≤ k) : OnGrid x (2 ^ k) := by
  simpa using onGrid_of_exponent_le 1 (show exponent x ≤ k + 52 by omega)

theorem rne_le_of_onGrid {x y : ℚ} (hx : x ≠ 0) (hgrid : OnGrid x y) (h : x ≤ y) : rne x ≤ y := by
  obtain ⟨n, rfl⟩ := hgrid
  rw [rne_of_ne_zero hx]
  have hn : nearestEven (x / ulp x) ≤ n := nearestEven_le ((div_le_iff₀ (ulp_pos x)).mpr h)
  exact mul_le_mul_of_nonneg_right (by exact_mod_cast hn) (ulp_pos x).le

theorem le_rne_of_onGrid {x y : ℚ} (hx : x ≠ 0) (hgrid : OnGrid x y) (h : y ≤ x) : y ≤ rne x := by
  obtain ⟨n, rfl⟩ := hgrid
  rw [rne_of_ne_zero hx]
  have hn : n ≤ nearestEven (x / ulp x) := le_nearestEven ((le_div_iff₀ (ulp_pos x)).mpr h)
  exact mul_le_mul_of_nonneg_right (by exact_mod_cast hn) (ulp_pos x).le

/-- A number on its own grid is a binary64 value, and rounding keeps it. -/
theorem rne_eq_self {x : ℚ} (hx : x ≠ 0) (hgrid : OnGrid x x) : rne x = x :=
  le_antisymm (rne_le_of_onGrid hx hgrid le_rfl) (le_rne_of_onGrid hx hgrid le_rfl)

@[simp] theorem rne_two_pow (k : Int) : rne (2 ^ k) = 2 ^ k := by
  have hx : (2 : ℚ) ^ k ≠ 0 := by positivity
  have hexp : exponent ((2 : ℚ) ^ k) ≤ k := exponent_le hx (abs_of_nonneg (by positivity)).le
  exact rne_eq_self hx (onGrid_two_pow hexp)

/-- A significand of at most `2^53` is exact in binary64. -/
theorem rne_natCast_mul_two_pow {N : Nat} (hN : N ≤ 2 ^ 53) (k : Int) : rne (N * 2 ^ k) = N * 2 ^ k := by
  obtain rfl | hpos := Nat.eq_zero_or_pos N
  · simp
  obtain hlt | rfl := Nat.lt_or_eq_of_le hN
  · have hx : 0 < (N : ℚ) * 2 ^ k := by positivity
    have hbound : |(N : ℚ) * 2 ^ k| < 2 ^ (53 + k) := by
      rw [abs_of_pos hx, zpow_add₀ two_ne_zero]
      exact mul_lt_mul_of_pos_right (by exact_mod_cast hlt) (by positivity)
    have hexp := exponent_lt hx.ne' hbound
    exact rne_eq_self hx.ne' (onGrid_of_exponent_le N (by omega))
  · have heq : ((2 ^ 53 : Nat) : ℚ) * 2 ^ k = 2 ^ (53 + k) := by
      rw [zpow_add₀ two_ne_zero]
      norm_cast
    rw [heq, rne_two_pow]

theorem rne_natCast_div_two_pow {N : Nat} (hN : N ≤ 2 ^ 53) (c : Nat) : rne (N / 2 ^ c) = N / 2 ^ c := by
  simpa [div_eq_mul_inv] using rne_natCast_mul_two_pow hN (-c)

/-- Rounding passes no power of two from below. -/
theorem rne_le_two_pow {x : ℚ} {k : Int} (hx : 0 ≤ x) (h : x ≤ 2 ^ k) : rne x ≤ 2 ^ k := by
  obtain rfl | hpos := hx.eq_or_lt
  · simpa using h
  · have hexp : exponent x ≤ k := exponent_le hpos.ne' (by rwa [abs_of_pos hpos])
    exact rne_le_of_onGrid hpos.ne' (onGrid_two_pow hexp) h

/-- Rounding passes no power of two from above. -/
theorem two_pow_le_rne {x : ℚ} {k : Int} (h : 2 ^ k ≤ x) : 2 ^ k ≤ rne x := by
  have hpos : 0 < x := h.trans_lt' (by positivity)
  have habs := abs_of_pos hpos
  have hexp : k ≤ exponent x := le_exponent hpos.ne' (by rwa [habs])
  obtain ⟨hle, -⟩ := abs_between_exponent hpos.ne'
  rw [habs] at hle
  calc (2 : ℚ) ^ k ≤ 2 ^ exponent x := zpow_le_zpow_right₀ one_le_two hexp
    _ ≤ rne x := le_rne_of_onGrid hpos.ne' (onGrid_two_pow le_rfl) hle

theorem rne_nonneg {x : ℚ} (hx : 0 ≤ x) : 0 ≤ rne x := by
  obtain rfl | hpos := hx.eq_or_lt
  · simp
  · exact le_rne_of_onGrid hpos.ne' ⟨0, by simp⟩ hx

/-- A rounded product lies below the powers of two of its factors. -/
theorem rne_mul_between {x y : ℚ} {j k : Int} (hx : 0 ≤ x ∧ x ≤ 2 ^ j) (hy : 0 ≤ y ∧ y ≤ 2 ^ k) :
    0 ≤ rne (x * y) ∧ rne (x * y) ≤ 2 ^ (j + k) := by
  obtain ⟨hx0, hxj⟩ := hx
  obtain ⟨hy0, hyk⟩ := hy
  have hxy : x * y ≤ 2 ^ (j + k) := by
    rw [zpow_add₀ two_ne_zero]
    exact mul_le_mul hxj hyk hy0 (by positivity)
  exact ⟨rne_nonneg (mul_nonneg hx0 hy0), rne_le_two_pow (mul_nonneg hx0 hy0) hxy⟩

/-! ## The sum -/

/-- From a multiple of `2^(-c)` on, every partial sum is a multiple of `2^(-c)` with a significand of at most `2^53`;
by induction on the registers. -/
theorem foldl_rne_eq {c : Nat} (r : List Byte) : ∀ N : Nat, (∀ x ∈ r, x.toNat ≤ c) →
    N + r.length * 2 ^ c ≤ 2 ^ 53 →
    r.foldl (fun acc x => rne (acc + 1 / 2 ^ x.toNat)) ((N : ℚ) / 2 ^ c) = N / 2 ^ c + registerSum r := by
  induction r with
  | nil => simp [registerSum]
  | cons x r ih =>
    intro N hmax hlen
    have hx : x.toNat ≤ c := hmax x List.mem_cons_self
    have hterm : (N : ℚ) / 2 ^ c + 1 / 2 ^ x.toNat = (N + 2 ^ (c - x.toNat) : Nat) / 2 ^ c := by
      rw [Nat.cast_add, add_div, Nat.cast_pow, Nat.cast_ofNat, pow_sub₀ 2 two_ne_zero hx]
      field_simp
    have hpow : 2 ^ (c - x.toNat) ≤ 2 ^ c := Nat.pow_le_pow_right two_pos (Nat.sub_le _ _)
    rw [List.length_cons, Nat.succ_mul] at hlen
    rw [List.foldl_cons, hterm, rne_natCast_div_two_pow (by omega),
      ih _ (fun y hy => hmax y (List.mem_cons_of_mem _ hy)) (by omega), ← hterm, registerSum, registerSum,
      List.map_cons, List.sum_cons, add_assoc]

theorem refSum_eq_registerSum {c : Nat} {r : List Byte} (hmax : ∀ x ∈ r, x.toNat ≤ c)
    (hlen : r.length * 2 ^ c ≤ 2 ^ 53) : refSum r = registerSum r := by
  simpa [refSum] using foldl_rne_eq r 0 hmax (by simpa using hlen)

/-- Settles O44: `2^20` terms that are multiples of `2^(-33)` up to 1 need no more than 53 bits, and the exact sum does
not depend on the order. -/
theorem refEvalSumIsExact : Obligations.RefEvalSumIsExact := by
  intro B r hB hlen hmax
  have hm : B.m ≤ 2 ^ 20 := Nat.pow_le_pow_right two_pos hB
  have hsum : refSum r = registerSum r := refSum_eq_registerSum hmax (by omega)
  refine ⟨hsum, fun r' hperm => ?_⟩
  have hmax' : ∀ x ∈ r', x.toNat ≤ 33 := fun x hx => hmax x (hperm.mem_iff.mpr hx)
  rw [hsum, registerSum_of_perm hperm]
  exact refSum_eq_registerSum hmax' (by rw [← hperm.length_eq]; omega)

/-! ## The empty sketch -/

/-- `alpha(m)` as `RefEval` rounds it. -/
def refAlpha (B : Precision) : ℚ :=
  if B.m = 16 then rne (673 / 1000)
  else if B.m = 32 then rne (697 / 1000)
  else if B.m = 64 then rne (709 / 1000)
  else rne (rne (7213 / 10000) / rne (1 + rne (rne (1079 / 1000) / B.m)))

/-- `rawE` as `RefEval` rounds it. -/
def refRawE (B : Precision) (r : List Byte) : ℚ :=
  rne (rne (rne (refAlpha B * B.m) * B.m) * rne (1 / refSum r))

theorem refEvalWith_of_lc (ln : ℚ → ℚ) {B : Precision} {r : List Byte} (hsmall : refRawE B r ≤ rne (5 / 2 * B.m))
    (hzero : 0 < zeroCount r) : refEvalWith ln B r = rne (B.m * ln (rne (B.m / zeroCount r))) := by
  unfold refRawE refAlpha at hsmall
  simp only [refEvalWith, if_pos hsmall, if_pos hzero]

theorem rne_mem_unit {x : ℚ} (h0 : 0 ≤ x) (h1 : x ≤ 1) : 0 ≤ rne x ∧ rne x ≤ 1 :=
  ⟨rne_nonneg h0, by simpa using rne_le_two_pow (k := 0) h0 (by simpa using h1)⟩

theorem refAlpha_mem_unit (B : Precision) : 0 ≤ refAlpha B ∧ refAlpha B ≤ 1 := by
  unfold refAlpha
  split_ifs
  · exact rne_mem_unit (by norm_num) (by norm_num)
  · exact rne_mem_unit (by norm_num) (by norm_num)
  · exact rne_mem_unit (by norm_num) (by norm_num)
  · obtain ⟨hnum0, hnum1⟩ := rne_mem_unit (x := 7213 / 10000) (by norm_num) (by norm_num)
    have hquot : 0 ≤ rne (rne (1079 / 1000) / B.m) :=
      rne_nonneg (div_nonneg (rne_nonneg (by norm_num)) (Nat.cast_nonneg _))
    have hden : 1 ≤ rne (1 + rne (rne (1079 / 1000) / B.m)) := by
      simpa using two_pow_le_rne (k := 0) (x := 1 + rne (rne (1079 / 1000) / B.m)) (by simpa using hquot)
    exact rne_mem_unit (div_nonneg hnum0 (zero_le_one.trans hden))
      ((div_le_one (zero_lt_one.trans_le hden)).mpr (hnum1.trans hden))

theorem cast_m_eq (B : Precision) : (B.m : ℚ) = 2 ^ (B.val : Int) := by
  simp [Precision.m]

theorem registerSum_replicate_zero (n : Nat) : registerSum (List.replicate n 0) = n := by
  rw [registerSum_of_empty fun x hx => List.eq_of_mem_replicate hx, List.length_replicate]

theorem zeroCount_replicate_zero (n : Nat) : zeroCount (List.replicate n 0) = n := by
  rw [(zeroCount_eq_length_iff _).mpr fun x hx => List.eq_of_mem_replicate hx, List.length_replicate]

theorem refSum_of_empty (B : Precision) : refSum (List.replicate B.m 0) = B.m := by
  have hm := Precision.m_le B
  rw [refSum_eq_registerSum (c := 0) (by simp) (by simp; omega), registerSum_replicate_zero]

/-- The empty sketch's rounded raw estimate is at most `m`: each factor is bounded by a power of two, which no rounding
passes. -/
theorem refRawE_of_empty_le (B : Precision) : refRawE B (List.replicate B.m 0) ≤ B.m := by
  have halpha : 0 ≤ refAlpha B ∧ refAlpha B ≤ 2 ^ (0 : Int) := by simpa using refAlpha_mem_unit B
  have hm : 0 ≤ (B.m : ℚ) ∧ (B.m : ℚ) ≤ 2 ^ (B.val : Int) := ⟨(cast_m_pos B).le, (cast_m_eq B).le⟩
  have hZ : 0 ≤ rne (1 / refSum (List.replicate B.m 0)) ∧
      rne (1 / refSum (List.replicate B.m 0)) ≤ 2 ^ (-(B.val : Int)) := by
    rw [refSum_of_empty, cast_m_eq, one_div, ← zpow_neg, rne_two_pow]
    exact ⟨by positivity, le_rfl⟩
  obtain ⟨-, hraw⟩ := rne_mul_between (rne_mul_between (rne_mul_between halpha hm) hm) hZ
  rw [zero_add, add_neg_cancel_right, ← cast_m_eq] at hraw
  exact hraw

theorem refSmallRange_of_empty (B : Precision) : refRawE B (List.replicate B.m 0) ≤ rne (5 / 2 * B.m) := by
  have hm := cast_m_pos B
  refine (refRawE_of_empty_le B).trans ?_
  rw [cast_m_eq] at hm ⊢
  exact two_pow_le_rne (by linarith)

theorem lnRounded_one : lnRounded 1 = 0 := by
  simp [lnRounded]

/-- Settles O43: the empty sketch passes the rounded small-range test, and linear counting takes `ln(m / m)`. -/
theorem refEvalEmptyIsZero : Obligations.RefEvalEmptyIsZero := by
  intro B
  have hone : rne 1 = 1 := by simpa using rne_two_pow 0
  rw [refEval, refEvalWith_of_lc _ (refSmallRange_of_empty B), zeroCount_replicate_zero,
    div_self (cast_m_pos B).ne', hone, lnRounded_one, mul_zero, rne_zero, bits64, if_pos rfl]
  rw [zeroCount_replicate_zero]
  exact Precision.m_pos B

end Sys2Proof.Machine
end

section
/-! PROOFS. The statements of spec/43_reset_accessors.md: the storage a `RESET` leaves, and the parameters the
read-only accessors respond with. -/

namespace Sys2Proof.Machine

/-! ## The commands without an operand, as operations on the state -/

theorem exec_reset (s : State) : exec .reset s = .next (s.clear.respond 0) := rfl

theorem exec_rdb (s : State) : exec .rdb s = .next (s.respond (BitVec.ofNat 64 s.B.val)) := rfl

theorem exec_rdm (s : State) : exec .rdm s = .next (s.respond (BitVec.ofNat 64 (2 ^ s.B.val))) := rfl

theorem exec_rdfoot (s : State) : exec .rdfoot s = .next (s.respond (BitVec.ofNat 64 (footprint s.B s.variant))) := rfl

/-! ## RESET -/

/-- Settles O49: `RESET` leaves the all-zero storage of the block's own variant, and its response changes nothing
else. -/
theorem resetClearsStorage : Obligations.ResetClearsStorage := by
  intro s
  refine ⟨_, exec_reset s, rfl, ?variant, rfl, rfl, fun p => ?bit, fun i => ?register⟩
  case variant => rw [State.variant_respond, State.variant_clear]
  case bit => rw [State.respond_storage, State.clear_storage, Storage.bit_empty]
  case register => rw [State.reg_respond, State.reg_clear]

/-! ## The accessors -/

theorem footprint_packed (B : Precision) : footprint B .packed = 8 * ((2 ^ B.val * 6 + 63) / 64) := rfl

theorem footprint_unpacked (B : Precision) : footprint B .unpacked = 2 ^ B.val := rfl

/-- Settles O51: each accessor only responds, and the datum of `RDFOOT` is the footprint of the block's variant. -/
theorem accessorsAnswerParameters : Obligations.AccessorsAnswerParameters := by
  intro s
  refine ⟨exec_rdb s, exec_rdm s, fun hpacked => ?packed, fun hunpacked => ?unpacked⟩
  case packed =>
    rw [exec_rdfoot, hpacked, footprint_packed]
    rfl
  case unpacked =>
    rw [exec_rdfoot, hunpacked, footprint_unpacked]
    rfl

end Sys2Proof.Machine
end

section
/-! PROOFS. The statements of spec/60_exceptions.md: which commands answer `OK`, which raise `INDEX_RANGE`, and the
construction a power-on refuses. -/

namespace Sys2Proof.Machine

/-! ## Valid commands and the index error -/

/-- Settles O10: the valid end of `exec_responds_or_raises`. -/
theorem validCommandsAnswerOk : Obligations.ValidCommandsAnswerOk := by
  intro i s hvalid
  obtain ⟨-, st, d, -, hexec⟩ | ⟨hinvalid, -⟩ := exec_responds_or_raises i s
  · exact ⟨_, d, hexec, rfl⟩
  · exact absurd hvalid hinvalid

theorem not_indexInRange_iff (B : Precision) (j : U32) : indexInRange B j ≠ true ↔ B.m ≤ j.toNat := by
  rw [Ne, indexInRange_iff, Nat.not_lt]

/-- The only invalid commands are a `GET` and a `SET` of an index out of range (R200). -/
theorem exists_index_of_not_wellFormed {B : Precision} {i : Instr} (h : i.wellFormed B ≠ true) :
    ∃ j : U32, B.m ≤ j.toNat ∧ (i = .get j ∨ ∃ v, i = .set j v) := by
  cases i with
  | get j => exact ⟨j, (not_indexInRange_iff B j).mp h, .inl rfl⟩
  | set j v => exact ⟨j, (not_indexInRange_iff B j).mp h, .inr ⟨v, rfl⟩⟩
  | add | estimate | reset | rdb | rdm | rdfoot => exact absurd rfl h

/-- Settles O12: a valid command appends `OK`, which is not `INDEX_RANGE`, so the command is an invalid one. -/
theorem onlyIndexErrorsRaiseIndexRange : Obligations.OnlyIndexErrorsRaiseIndexRange := by
  intro i s t d hexec hresp
  refine exists_index_of_not_wellFormed fun hvalid => ?_
  obtain ⟨t', d', hexec', hok⟩ := validCommandsAnswerOk i s hvalid
  obtain rfl : t' = t := by simpa [hexec'] using hexec
  simp [hok] at hresp

/-! ## Power-on -/

theorem strapWellFormed_iff (cfgB : BitVec 6) : strapWellFormed cfgB = true ↔ cfgB.toNat ≤ 32 := decide_eq_true_iff

theorem val_precisionOfStrap {cfgB : BitVec 6} (h : cfgB.toNat ≤ 32) : (precisionOfStrap cfgB).val = cfgB.toNat :=
  Nat.mod_eq_of_lt (Nat.lt_succ_of_le h)

theorem powerOn_refused_of_lt {cfgB : BitVec 6} (h : 32 < cfgB.toNat) (v : Variant) (s : State) :
    s.powerOn cfgB v = .refused (.strapOutOfRange cfgB) :=
  if_neg fun hstrap => Nat.not_lt_of_le ((strapWellFormed_iff cfgB).mp hstrap) h

/-- Settles O8, by the two sides of the strap check. -/
theorem powerOnSamplesStraps : Obligations.PowerOnSamplesStraps := by
  intro s cfgB v rest hin
  rw [step_powerOn s cfgB v rest hin, take_of_inputs_cons hin]
  constructor
  · intro hle
    exact ⟨_, powerOn_of_strapWellFormed ((strapWellFormed_iff cfgB).mpr hle) v _, val_precisionOfStrap hle,
      Storage.variant_empty v, rfl, Storage.bit_empty v, rfl, rfl⟩
  · intro hlt
    exact powerOn_refused_of_lt hlt v _

end Sys2Proof.Machine
end

section
/-! PROOFS. The statement of spec/70_reset_and_hazards.md: `RESET` against a power-on with the block's own straps
(R231). -/

namespace Sys2Proof.Machine

/-- Every precision fits the 6-bit strap `cfg_B`. -/
theorem toNat_strap (B : Precision) : (BitVec.ofNat 6 B.val).toNat = B.val :=
  Nat.mod_eq_of_lt (B.isLt.trans (by decide))

theorem strapWellFormed_strap (B : Precision) : strapWellFormed (BitVec.ofNat 6 B.val) = true := by
  rw [strapWellFormed_iff, toNat_strap]
  exact Nat.le_of_lt_succ B.isLt

@[simp] theorem precisionOfStrap_strap (B : Precision) : precisionOfStrap (BitVec.ofNat 6 B.val) = B := by
  rw [precisionOfStrap, toNat_strap]
  exact Fin.ofNat_val_eq_self B

/-- A power-on with the block's own straps is `State.clear`, whole state for whole state. -/
theorem powerOn_own_straps (s : State) : s.powerOn (BitVec.ofNat 6 s.B.val) s.variant = .next s.clear := by
  rw [powerOn_of_strapWellFormed (strapWellFormed_strap s.B), precisionOfStrap_strap, State.clear]

/-- Settles O50: a power-on with the block's own straps is the clearing that `RESET` does, and `RESET` adds only its
response. -/
theorem resetEqualsPowerOn : Obligations.ResetEqualsPowerOn := by
  intro s
  exact ⟨s.clear.respond 0, s.clear, exec_reset s, powerOn_own_straps s, State.respond_storage _ _,
    State.respond_B _ _, State.variant_respond _ _⟩

end Sys2Proof.Machine
end

section
/-! PROOFS. The statement of spec/70_reset_and_hazards.md section 3 on a step without an input (R234). -/

namespace Sys2Proof.Machine

/-- Settles O7: with no input there is nothing for the step to take. -/
theorem stepWithoutInputChangesNothing : Obligations.StepWithoutInputChangesNothing := step_of_no_input

end Sys2Proof.Machine
end
